-- ==== Sys2Proof/Word.lean ====
section
/-! DEFINITION. The word types of the block (00_scope.md R5, R6): every value is an unsigned bit string of a stated width. -/

namespace Sys2Proof

/-- A 4-bit field: a register index `X` or `Y`, the sprite height `N`, a key code (30_encoding.md R71). -/
abbrev Nibble := BitVec 4

/-- The 12-bit address field `NNN` (30_encoding.md R71). -/
abbrev Addr := BitVec 12

/-- A memory byte, a general register, a timer, the immediate `NN` (00_scope.md R5). -/
abbrev Byte := BitVec 8

/-- An instruction word, `pc`, `I`, a stack entry (00_scope.md R5). -/
abbrev Word := BitVec 16

end Sys2Proof
end

