-- ==== Sys2Proof/Syntax.lean ====
section
/-! DEFINITION. The tagged operations of 30_encoding.md R78: one constructor per row of spec/opcode_table.json, in the
table's order, each carrying only the fields of its row. -/

namespace Sys2Proof

/-- The 35 tagged operations (30_encoding.md R74, R78). The comment beside each is its row's mnemonic. -/
inductive Instr where
  | sys (nnn : Addr)              -- SYS nnn
  | cls                           -- CLS
  | ret                           -- RET
  | jp (nnn : Addr)               -- JP nnn
  | call (nnn : Addr)             -- CALL nnn
  | seImm (x : Nibble) (kk : Byte)    -- SE Vx, kk
  | sneImm (x : Nibble) (kk : Byte)   -- SNE Vx, kk
  | seReg (x y : Nibble)          -- SE Vx, Vy
  | ldImm (x : Nibble) (kk : Byte)    -- LD Vx, kk
  | addImm (x : Nibble) (kk : Byte)   -- ADD Vx, kk
  | ldReg (x y : Nibble)          -- LD Vx, Vy
  | orReg (x y : Nibble)          -- OR Vx, Vy
  | andReg (x y : Nibble)         -- AND Vx, Vy
  | xorReg (x y : Nibble)         -- XOR Vx, Vy
  | addReg (x y : Nibble)         -- ADD Vx, Vy
  | sub (x y : Nibble)            -- SUB Vx, Vy
  | shr (x y : Nibble)            -- SHR Vx {, Vy}
  | subn (x y : Nibble)           -- SUBN Vx, Vy
  | shl (x y : Nibble)            -- SHL Vx {, Vy}
  | sneReg (x y : Nibble)         -- SNE Vx, Vy
  | ldI (nnn : Addr)              -- LD I, nnn
  | jpV0 (nnn : Addr)             -- JP V0, nnn
  | rnd (x : Nibble) (kk : Byte)  -- RND Vx, kk
  | drw (x y n : Nibble)          -- DRW Vx, Vy, d
  | skp (x : Nibble)              -- SKP Vx
  | sknp (x : Nibble)             -- SKNP Vx
  | ldVxDt (x : Nibble)           -- LD Vx, DT
  | ldVxK (x : Nibble)            -- LD Vx, K
  | ldDtVx (x : Nibble)           -- LD DT, Vx
  | ldStVx (x : Nibble)           -- LD ST, Vx
  | addIVx (x : Nibble)           -- ADD I, Vx
  | ldFVx (x : Nibble)            -- LD F, Vx
  | ldBVx (x : Nibble)            -- LD B, Vx
  | ldMemVx (x : Nibble)          -- LD [I], Vx
  | ldVxMem (x : Nibble)          -- LD Vx, [I]
deriving DecidableEq, Repr

end Sys2Proof
end

