-- ==== Sys2Proof/Decode.lean ====
section
/-! DEFINITION. The decoder of 30_encoding.md R73 and R74, total on every word and on every list of bytes, and after it an
encoder written from the same rows. -/

namespace Sys2Proof

/-! ### The fields of an instruction word (30_encoding.md R71) -/

/-- `OP`, the high nibble `w[15:12]`. -/
def fieldOp (w : Word) : Nibble := w.extractLsb' 12 4

/-- `X`, `w[11:8]`. -/
def fieldX (w : Word) : Nibble := w.extractLsb' 8 4

/-- `Y`, `w[7:4]`. -/
def fieldY (w : Word) : Nibble := w.extractLsb' 4 4

/-- `N`, `w[3:0]`. -/
def fieldN (w : Word) : Nibble := w.extractLsb' 0 4

/-- `NN` (`kk`), `w[7:0]`. -/
def fieldNN (w : Word) : Byte := w.extractLsb' 0 8

/-- `NNN`, `w[11:0]`. -/
def fieldNNN (w : Word) : Addr := w.extractLsb' 0 12

/-! ### The decoder -/

/-- What `Decode` answers: exactly one tagged operation, or `UnknownOpcode` (30_encoding.md R73). -/
inductive Decoded where
  | op (i : Instr)
  | unknownOpcode
deriving DecidableEq, Repr

/-- Second level of OP 0: CLS, RET, and SYS for every other word (30_encoding.md R73, R77). -/
def decodeOp0 (w : Word) : Decoded :=
  if w = 0x00E0#16 then .op .cls
  else if w = 0x00EE#16 then .op .ret
  else .op (.sys (fieldNNN w))

/-- Second level of OP 8, on `w[3:0]` (30_encoding.md R73). -/
def decodeOp8 (w : Word) : Decoded :=
  match fieldN w with
  | 0x0#4 => .op (.ldReg (fieldX w) (fieldY w))
  | 0x1#4 => .op (.orReg (fieldX w) (fieldY w))
  | 0x2#4 => .op (.andReg (fieldX w) (fieldY w))
  | 0x3#4 => .op (.xorReg (fieldX w) (fieldY w))
  | 0x4#4 => .op (.addReg (fieldX w) (fieldY w))
  | 0x5#4 => .op (.sub (fieldX w) (fieldY w))
  | 0x6#4 => .op (.shr (fieldX w) (fieldY w))
  | 0x7#4 => .op (.subn (fieldX w) (fieldY w))
  | 0xE#4 => .op (.shl (fieldX w) (fieldY w))
  | _ => .unknownOpcode

/-- Second level of OP E, on `w[7:0]` (30_encoding.md R73). -/
def decodeOpE (w : Word) : Decoded :=
  match fieldNN w with
  | 0x9E#8 => .op (.skp (fieldX w))
  | 0xA1#8 => .op (.sknp (fieldX w))
  | _ => .unknownOpcode

/-- Second level of OP F, on `w[7:0]` (30_encoding.md R73). -/
def decodeOpF (w : Word) : Decoded :=
  match fieldNN w with
  | 0x07#8 => .op (.ldVxDt (fieldX w))
  | 0x0A#8 => .op (.ldVxK (fieldX w))
  | 0x15#8 => .op (.ldDtVx (fieldX w))
  | 0x18#8 => .op (.ldStVx (fieldX w))
  | 0x1E#8 => .op (.addIVx (fieldX w))
  | 0x29#8 => .op (.ldFVx (fieldX w))
  | 0x33#8 => .op (.ldBVx (fieldX w))
  | 0x55#8 => .op (.ldMemVx (fieldX w))
  | 0x65#8 => .op (.ldVxMem (fieldX w))
  | _ => .unknownOpcode

/-- `Decode : word16 -> Op or UnknownOpcode` (30_encoding.md R73): a lookup on the high nibble, and on low-order fields for
the high nibbles 0, 8, E and F. OP 5 and OP 9 ignore `w[3:0]` (R75). The last arm is OP F, the one value left. -/
def decodeWord (w : Word) : Decoded :=
  match fieldOp w with
  | 0x0#4 => decodeOp0 w
  | 0x1#4 => .op (.jp (fieldNNN w))
  | 0x2#4 => .op (.call (fieldNNN w))
  | 0x3#4 => .op (.seImm (fieldX w) (fieldNN w))
  | 0x4#4 => .op (.sneImm (fieldX w) (fieldNN w))
  | 0x5#4 => .op (.seReg (fieldX w) (fieldY w))
  | 0x6#4 => .op (.ldImm (fieldX w) (fieldNN w))
  | 0x7#4 => .op (.addImm (fieldX w) (fieldNN w))
  | 0x8#4 => decodeOp8 w
  | 0x9#4 => .op (.sneReg (fieldX w) (fieldY w))
  | 0xA#4 => .op (.ldI (fieldNNN w))
  | 0xB#4 => .op (.jpV0 (fieldNNN w))
  | 0xC#4 => .op (.rnd (fieldX w) (fieldNN w))
  | 0xD#4 => .op (.drw (fieldX w) (fieldY w) (fieldN w))
  | 0xE#4 => decodeOpE w
  | _ => decodeOpF w

/-! ### Bytes -/

/-- The word two bytes make: the byte at the lower address is `word[15:8]` (20_memory.md R54, decision D1 of the spec). -/
def wordOfBytes (hi lo : Byte) : Word := hi ++ lo

/-- The two bytes of a word as the hardware stores them, the high byte at the lower address (20_memory.md R54). -/
def bytesOfWord (w : Word) : List Byte := [w.extractLsb' 8 8, w.extractLsb' 0 8]

/-- What decoding a list of bytes answers: the operation and the bytes after it, or a rejection by name: the word is no
instruction (30_encoding.md R76), or fewer than the two bytes of R70 are there. -/
inductive DecodedBytes where
  | op (i : Instr) (rest : List Byte)
  | unknownOpcode (w : Word)
  | truncated (left : List Byte)
deriving DecidableEq, Repr

/-- Decode the first instruction of a list of bytes: every instruction is two bytes, high byte first (30_encoding.md R70). -/
def decode : List Byte → DecodedBytes
  | hi :: lo :: rest =>
    match decodeWord (wordOfBytes hi lo) with
    | .op i => .op i rest
    | .unknownOpcode => .unknownOpcode (wordOfBytes hi lo)
  | left => .truncated left

/-- The word whose `nbits` low bits are those of `w` and whose other bits are 0. -/
def tableWord (nbits w : Nat) : Word := BitVec.ofNat 16 (w % 2 ^ nbits)

/-- The instruction the decoder reads from a word numbered as spec/opcode_table.json numbers it, laid out in memory order
(30_encoding.md R70, 20_memory.md R54). -/
def decodeTableWord (nbits w : Nat) : Option Instr :=
  match decode (bytesOfWord (tableWord nbits w)) with
  | .op i _ => some i
  | .unknownOpcode _ => none
  | .truncated _ => none

/-! ### The encoder -/

/-- The word of an instruction, from the patterns of 30_encoding.md R74. `zzzz` of `SE Vx, Vy` and `SNE Vx, Vy` is encoded as
0, the canonical spelling (R75); `Y` of SHR and SHL is encoded as the constructor holds it (R78). -/
def encode : Instr → Word
  | .sys nnn => 0x0#4 ++ nnn
  | .cls => 0x00E0#16
  | .ret => 0x00EE#16
  | .jp nnn => 0x1#4 ++ nnn
  | .call nnn => 0x2#4 ++ nnn
  | .seImm x kk => 0x3#4 ++ x ++ kk
  | .sneImm x kk => 0x4#4 ++ x ++ kk
  | .seReg x y => 0x5#4 ++ x ++ y ++ 0x0#4
  | .ldImm x kk => 0x6#4 ++ x ++ kk
  | .addImm x kk => 0x7#4 ++ x ++ kk
  | .ldReg x y => 0x8#4 ++ x ++ y ++ 0x0#4
  | .orReg x y => 0x8#4 ++ x ++ y ++ 0x1#4
  | .andReg x y => 0x8#4 ++ x ++ y ++ 0x2#4
  | .xorReg x y => 0x8#4 ++ x ++ y ++ 0x3#4
  | .addReg x y => 0x8#4 ++ x ++ y ++ 0x4#4
  | .sub x y => 0x8#4 ++ x ++ y ++ 0x5#4
  | .shr x y => 0x8#4 ++ x ++ y ++ 0x6#4
  | .subn x y => 0x8#4 ++ x ++ y ++ 0x7#4
  | .shl x y => 0x8#4 ++ x ++ y ++ 0xE#4
  | .sneReg x y => 0x9#4 ++ x ++ y ++ 0x0#4
  | .ldI nnn => 0xA#4 ++ nnn
  | .jpV0 nnn => 0xB#4 ++ nnn
  | .rnd x kk => 0xC#4 ++ x ++ kk
  | .drw x y n => 0xD#4 ++ x ++ y ++ n
  | .skp x => 0xE#4 ++ x ++ 0x9E#8
  | .sknp x => 0xE#4 ++ x ++ 0xA1#8
  | .ldVxDt x => 0xF#4 ++ x ++ 0x07#8
  | .ldVxK x => 0xF#4 ++ x ++ 0x0A#8
  | .ldDtVx x => 0xF#4 ++ x ++ 0x15#8
  | .ldStVx x => 0xF#4 ++ x ++ 0x18#8
  | .addIVx x => 0xF#4 ++ x ++ 0x1E#8
  | .ldFVx x => 0xF#4 ++ x ++ 0x29#8
  | .ldBVx x => 0xF#4 ++ x ++ 0x33#8
  | .ldMemVx x => 0xF#4 ++ x ++ 0x55#8
  | .ldVxMem x => 0xF#4 ++ x ++ 0x65#8

/-! ### The opcode map's masks (30_encoding.md R74) -/

/-- The `mask` of the row an operation stands for (30_encoding.md R74). -/
def rowMask : Instr → Word
  | .sys _ => 0xF000#16
  | .cls => 0xFFFF#16
  | .ret => 0xFFFF#16
  | .jp _ => 0xF000#16
  | .call _ => 0xF000#16
  | .seImm _ _ => 0xF000#16
  | .sneImm _ _ => 0xF000#16
  | .seReg _ _ => 0xF000#16
  | .ldImm _ _ => 0xF000#16
  | .addImm _ _ => 0xF000#16
  | .ldReg _ _ => 0xF00F#16
  | .orReg _ _ => 0xF00F#16
  | .andReg _ _ => 0xF00F#16
  | .xorReg _ _ => 0xF00F#16
  | .addReg _ _ => 0xF00F#16
  | .sub _ _ => 0xF00F#16
  | .shr _ _ => 0xF00F#16
  | .subn _ _ => 0xF00F#16
  | .shl _ _ => 0xF00F#16
  | .sneReg _ _ => 0xF000#16
  | .ldI _ => 0xF000#16
  | .jpV0 _ => 0xF000#16
  | .rnd _ _ => 0xF000#16
  | .drw _ _ _ => 0xF000#16
  | .skp _ => 0xF0FF#16
  | .sknp _ => 0xF0FF#16
  | .ldVxDt _ => 0xF0FF#16
  | .ldVxK _ => 0xF0FF#16
  | .ldDtVx _ => 0xF0FF#16
  | .ldStVx _ => 0xF0FF#16
  | .addIVx _ => 0xF0FF#16
  | .ldFVx _ => 0xF0FF#16
  | .ldBVx _ => 0xF0FF#16
  | .ldMemVx _ => 0xF0FF#16
  | .ldVxMem _ => 0xF0FF#16

/-- The `match` of the row an operation stands for (30_encoding.md R74). -/
def rowMatch : Instr → Word
  | .sys _ => 0x0000#16
  | .cls => 0x00E0#16
  | .ret => 0x00EE#16
  | .jp _ => 0x1000#16
  | .call _ => 0x2000#16
  | .seImm _ _ => 0x3000#16
  | .sneImm _ _ => 0x4000#16
  | .seReg _ _ => 0x5000#16
  | .ldImm _ _ => 0x6000#16
  | .addImm _ _ => 0x7000#16
  | .ldReg _ _ => 0x8000#16
  | .orReg _ _ => 0x8001#16
  | .andReg _ _ => 0x8002#16
  | .xorReg _ _ => 0x8003#16
  | .addReg _ _ => 0x8004#16
  | .sub _ _ => 0x8005#16
  | .shr _ _ => 0x8006#16
  | .subn _ _ => 0x8007#16
  | .shl _ _ => 0x800E#16
  | .sneReg _ _ => 0x9000#16
  | .ldI _ => 0xA000#16
  | .jpV0 _ => 0xB000#16
  | .rnd _ _ => 0xC000#16
  | .drw _ _ _ => 0xD000#16
  | .skp _ => 0xE09E#16
  | .sknp _ => 0xE0A1#16
  | .ldVxDt _ => 0xF007#16
  | .ldVxK _ => 0xF00A#16
  | .ldDtVx _ => 0xF015#16
  | .ldStVx _ => 0xF018#16
  | .addIVx _ => 0xF01E#16
  | .ldFVx _ => 0xF029#16
  | .ldBVx _ => 0xF033#16
  | .ldMemVx _ => 0xF055#16
  | .ldVxMem _ => 0xF065#16

end Sys2Proof
end

