-- ==== Sys2Proof/Config.lean ====
section
/-! DEFINITION. The parameters of the block (00_scope.md R5): the fixed ones as constants, the two OPEN ones as a record the
model takes as an argument, and the one free value, the random byte (46_random.md R201). -/

namespace Sys2Proof.Config

/-- `MEM_SIZE`: 4096 bytes, addresses 0x000..0xFFF (00_scope.md R5). -/
abbrev memSize : Nat := 4096

/-- `PROG_BASE`: where LOAD puts the image (00_scope.md R5). -/
abbrev progBase : Nat := 0x200

/-- `MAX_IMAGE`: 4096 - 0x200 bytes (00_scope.md R5, 20_memory.md R68). -/
abbrev maxImage : Nat := 3584

/-- `ENTRY_PC`: the `pc` after RESET (00_scope.md R5, 10_state.md R38, decision D20 of the spec). -/
abbrev entryPc : Word := 0x0200#16

/-- `SYS_MODE`, an OPEN parameter (00_scope.md R5, 41_control.md R120). -/
inductive SysMode where
  | halt
  | ignore
deriving DecidableEq, Repr

/-- The two OPEN parameters. `fontBase` is `FONT_BASE`; its type is the constraint `FONT_BASE + 80 <= 0x200`
(00_scope.md R5, 20_memory.md R53). -/
structure Params where
  fontBase : Fin 433
  sysMode : SysMode
deriving DecidableEq, Repr

/-- The defaults of 00_scope.md R5, which 95_test_vectors.md uses: `FONT_BASE = 0x050`, `SYS_MODE = halt`. -/
def Params.default : Params := { fontBase := 0x050, sysMode := .halt }

/-- The random source (46_random.md R201): the n-th byte drawn from it. A FREE VALUE: no body, nothing constrains it
(DESIGN CHOICE, safe: every byte sequence is admitted, decision D28 of the spec; log 2). -/
opaque randByte : Nat → Byte

end Sys2Proof.Config
end

