-- ==== Sys2Proof/Machine/State.lean ====
section
/-! DEFINITION. The complete state of the block as plain data (10_state.md R20), the reasons a step can stop, and the state
after reset (10_state.md R36, 70_reset_and_hazards.md R250). -/

namespace Sys2Proof.Machine

/-- `run_state` (10_state.md R30). -/
inductive RunState where
  | running
  | waitingForKey
  | halted
deriving DecidableEq, Repr

/-- The kinds of fault (60_exceptions.md R220), in the order of their codes. -/
inductive FaultKind where
  | unknownOpcode
  | stackOverflow
  | stackUnderflow
  | memoryOutOfBounds
  | romTooLarge
deriving DecidableEq, Repr

/-- The fault record `(kind, pc, word)` (10_state.md R31, 60_exceptions.md R222). `pc` is none for `RomTooLarge`; `word` is none
where no word applies. -/
structure FaultRecord where
  kind : FaultKind
  pc : Option Word
  word : Option Word
deriving DecidableEq, Repr

/-- The framebuffer (10_state.md R28): 32 rows; bit `x` of row `y` is the pixel `FB[y][x]`.
DESIGN CHOICE, safe (log 11): a row of 64 one-bit pixels is held as 64 bits. -/
abbrev Framebuffer := Vector (BitVec 64) 32

/-- The state of the block (10_state.md R20). The last three fields are the MODEL's own, not the spec's state. -/
structure State where
  /-- `mem`: the bytes that differ from the reset contents, by rising address (20_memory.md R50; log 8). -/
  mem : List Host.Cell
  /-- `V[0..15]`; `V[15]` is VF (10_state.md R21, R22). -/
  v : Vector Byte 16
  /-- `I` (10_state.md R23). -/
  i : Word
  /-- `pc` (10_state.md R24). -/
  pc : Word
  /-- `stack[0..15]`, dead entries included (10_state.md R25). -/
  stack : Vector Word 16
  /-- `sp`, 0..16: how many return addresses are held (10_state.md R25; log 12). -/
  sp : Fin 17
  /-- `DT` (10_state.md R26). -/
  dt : Byte
  /-- `ST` (10_state.md R27). -/
  st : Byte
  /-- `FB` (10_state.md R28). -/
  fb : Framebuffer
  /-- `keys[0..15]`, true: the key is down (10_state.md R29). -/
  keys : Vector Bool 16
  /-- `run_state` (10_state.md R30). -/
  runState : RunState
  /-- `wait_reg`, read only while waiting (10_state.md R30). -/
  waitReg : Nibble
  /-- `fault` (10_state.md R31). -/
  fault : Option FaultRecord
  /-- MODEL's own: the OPEN parameters the model takes as an argument (00_scope.md R5). No instruction and no event writes it.
  DESIGN CHOICE, safe for a claim about every state (log 1). -/
  params : Config.Params
  /-- MODEL's own: the `rand` bytes a driver has supplied for the coming RNDs (46_random.md R201). DESIGN CHOICE, safe (log 2). -/
  randInputs : List Byte
  /-- MODEL's own: how many free bytes have been drawn from `Config.randByte`. DESIGN CHOICE, safe (log 2). -/
  randDraws : Nat
deriving DecidableEq, Repr

/-- Why the machine stops. The faults of a STEP (60_exceptions.md R220) are NOT here: the spec describes their entry, so they are
next states in which `runState` is halted and `fault` holds the record (log 3). -/
inductive Fault where
  /-- Raised by `step` alone, for a STEP issued in HALTED, with the stored fault record (40_cycle_engine.md R101, 60_exceptions.md
  R221). Safe: it is the spec's own error `AlreadyHalted`, which changes no state. -/
  | alreadyHalted (record : Option FaultRecord)
deriving DecidableEq, Repr

/-- What the model refuses. -/
inductive Refusal where
  /-- Raised by an arm of `exec` for an instruction without a meaning; no arm does. Safe: the model stops. -/
  | notModelled (mnemonic : String)
  /-- Raised by `handle` for a LOAD whose previous event was not RESET, to which the spec gives no meaning
  (70_reset_and_hazards.md R251, 93_implementation_defined.md U17). Safe: the model stops (log 6). -/
  | loadNotAfterReset
deriving DecidableEq, Repr

/-- The state after the RESET event, for given parameters and a given count of free bytes drawn (10_state.md R36: every value
below is the spec's, its decisions D19 and D20; log 7). Memory lists nothing: it reads as the reset contents. -/
def State.resetWith (params : Config.Params) (randDraws : Nat) : State where
  mem := []
  v := Vector.replicate 16 0x00#8
  i := 0x0000#16
  pc := Config.entryPc
  stack := Vector.replicate 16 0x0000#16
  sp := 0
  dt := 0x00#8
  st := 0x00#8
  fb := Vector.replicate 32 0#64
  keys := Vector.replicate 16 false
  runState := .running
  waitReg := 0x0#4
  fault := none
  params := params
  randInputs := []
  randDraws := randDraws

/-- The machine right after reset, at the spec's default parameters (10_state.md R36, 00_scope.md R5; log 1, log 7). -/
def State.reset : State := State.resetWith Config.Params.default 0

end Sys2Proof.Machine
end

