-- ==== Sys2Proof/Machine/Font.lean ====
section
/-! DEFINITION. The font (20_memory.md R53) and with it the reset contents of memory (10_state.md R36). -/

namespace Sys2Proof.Machine

/-- The 16 glyphs of 20_memory.md R53, 5 rows each, digit 0 first: 80 bytes. -/
def fontTable : List Byte :=
  [0xF0, 0x90, 0x90, 0x90, 0xF0] ++  -- 0
  [0x20, 0x60, 0x20, 0x20, 0x70] ++  -- 1
  [0xF0, 0x10, 0xF0, 0x80, 0xF0] ++  -- 2
  [0xF0, 0x10, 0xF0, 0x10, 0xF0] ++  -- 3
  [0x90, 0x90, 0xF0, 0x10, 0x10] ++  -- 4
  [0xF0, 0x80, 0xF0, 0x10, 0xF0] ++  -- 5
  [0xF0, 0x80, 0xF0, 0x90, 0xF0] ++  -- 6
  [0xF0, 0x10, 0x20, 0x40, 0x40] ++  -- 7
  [0xF0, 0x90, 0xF0, 0x90, 0xF0] ++  -- 8
  [0xF0, 0x90, 0xF0, 0x10, 0xF0] ++  -- 9
  [0xF0, 0x90, 0xF0, 0x90, 0x90] ++  -- A
  [0xE0, 0x90, 0xE0, 0x90, 0xE0] ++  -- B
  [0xF0, 0x80, 0x80, 0x80, 0xF0] ++  -- C
  [0xE0, 0x90, 0x90, 0x90, 0xE0] ++  -- D
  [0xF0, 0x80, 0xF0, 0x80, 0xF0] ++  -- E
  [0xF0, 0x80, 0xF0, 0x80, 0x80]     -- F

/-- What an address that memory does not list reads as: the reset contents, the font at `FONT_BASE..FONT_BASE+79` and 0x00
elsewhere (10_state.md R36, 20_memory.md R51, R53; log 8). -/
def unlistedByte (params : Config.Params) (addr : Nat) : Byte :=
  if params.fontBase.val ≤ addr then fontTable.getD (addr - params.fontBase.val) 0x00#8 else 0x00#8

end Sys2Proof.Machine
end

