-- ==== Sys2Proof/Machine/Ops.lean ====
section
/-! DEFINITION. The named operations over memory, registers, the program counter, the call stack and the fault record, each
used by every meaning that needs it (00_scope.md R7, R8, R9). -/

namespace Sys2Proof.Machine

/-! ### Memory as a list of cells (20_memory.md R50) -/

/-- The byte listed at an address, if one is listed. -/
def lookupCell : List Host.Cell → Nat → Option Byte
  | [], _ => none
  | (a, b) :: rest, addr => if a = addr then some b else lookupCell rest addr

/-- The list without any entry at an address. -/
def removeCell (addr : Nat) (cells : List Host.Cell) : List Host.Cell :=
  cells.filter (fun c => c.1 != addr)

/-- The list with one more entry, put before the first entry of a higher address. -/
def insertCell (addr : Nat) (b : Byte) : List Host.Cell → List Host.Cell
  | [] => [(addr, b)]
  | (a, c) :: rest => if addr < a then (addr, b) :: (a, c) :: rest else (a, c) :: insertCell addr b rest

/-- The canonical form of memory: addresses strictly rising and below 4096, and no entry equal to what an unlisted address
reads as (log 8). -/
def memoryWf (params : Config.Params) : List Host.Cell → Bool
  | [] => true
  | [(a, b)] => decide (a < Config.memSize) && (b != unlistedByte params a)
  | (a, b) :: (a', b') :: rest =>
    decide (a < a') && (b != unlistedByte params a) && memoryWf params ((a', b') :: rest)

/-- `mem[addr]`, the bounds of R52 apart: the listed byte, or the reset contents. -/
def State.readByte (s : State) (addr : Nat) : Byte :=
  (lookupCell s.mem addr).getD (unlistedByte s.params addr)

/-- `mem[addr] <- b`, the bounds of R52 apart. Writing the reset byte removes the entry, so the form stays canonical. -/
def State.writeByte (s : State) (addr : Nat) (b : Byte) : State :=
  { s with
    mem :=
      if b = unlistedByte s.params addr then removeCell addr s.mem
      else insertCell addr b (removeCell addr s.mem) }

/-- `addr` names a byte: addresses above 0xFFF do not exist (20_memory.md R50, R52). -/
def inBounds (addr : Nat) : Bool := decide (addr ≤ 0xFFF)

/-- `MemRead(addr, 1)` (20_memory.md R52): none stands for `raise MemoryOutOfBounds`. -/
def State.memRead (s : State) (addr : Nat) : Option Byte :=
  if inBounds addr then some (s.readByte addr) else none

/-- `MemWrite(addr, 1, b)` (20_memory.md R52): none stands for `raise MemoryOutOfBounds`. -/
def State.memWrite (s : State) (addr : Nat) (b : Byte) : Option State :=
  if inBounds addr then some (s.writeByte addr b) else none

/-- Bytes written at ascending addresses from `addr` on. -/
def State.writeBytes (s : State) (addr : Nat) : List Byte → State
  | [] => s
  | b :: rest => (s.writeByte addr b).writeBytes (addr + 1) rest

/-! ### General registers (10_state.md R21) -/

/-- `V[x]`. -/
def State.getV (s : State) (x : Nibble) : Byte := s.v[x.toNat]'x.isLt

/-- `V[x] <- b`. No register is hardwired (10_state.md R21). -/
def State.setV (s : State) (x : Nibble) (b : Byte) : State := { s with v := s.v.set x.toNat b x.isLt }

/-- `V[15] <- 1` or `V[15] <- 0`: the flag is the ordinary register VF (10_state.md R22). -/
def State.setFlag (s : State) (flag : Bool) : State := s.setV 0xF#4 (if flag then 0x01#8 else 0x00#8)

/-! ### Index register and timers -/

/-- `I <- a` (10_state.md R23): never range-checked. -/
def State.setI (s : State) (a : Word) : State := { s with i := a }

/-- `DT <- b` (10_state.md R26). -/
def State.setDt (s : State) (b : Byte) : State := { s with dt := b }

/-- `ST <- b` (10_state.md R27). -/
def State.setSt (s : State) (b : Byte) : State := { s with st := b }

/-- `FB <- f` (10_state.md R28). -/
def State.setFb (s : State) (f : Framebuffer) : State := { s with fb := f }

/-! ### Program counter (10_state.md R24) -/

/-- `pc <- target`. -/
def State.jump (s : State) (target : Word) : State := { s with pc := target }

/-- `pc <- pc + 2`, the ordinary advance (40_cycle_engine.md R105). The sum is taken in 16 bits; a fetched instruction stands
at 0xFFE at most (R103), so it never wraps there (DEDUCED, safe; log 13). -/
def State.advance (s : State) : State := s.jump (s.pc + 2#16)

/-- A skip: `pc <- pc + 4` when taken, else `pc <- pc + 2` (41_control.md R124, 40_cycle_engine.md R105; log 13). -/
def State.skipIf (s : State) (taken : Bool) : State := if taken then s.jump (s.pc + 4#16) else s.advance

/-! ### Call stack (10_state.md R25) -/

/-- Push a return address; none: the stack is full (41_control.md R123). -/
def State.push (s : State) (a : Word) : Option State :=
  if h : s.sp.val < 16 then
    some { s with stack := s.stack.set s.sp.val a h, sp := ⟨s.sp.val + 1, Nat.succ_lt_succ h⟩ }
  else none

/-- Pop a return address; none: the stack is empty. The entry popped is not erased (41_control.md R121). -/
def State.pop (s : State) : Option (Word × State) :=
  if h : 0 < s.sp.val then
    have hlt : s.sp.val - 1 < 16 := Nat.lt_of_lt_of_le (Nat.sub_one_lt (Nat.ne_of_gt h)) (Nat.le_of_lt_succ s.sp.isLt)
    some (s.stack[s.sp.val - 1], { s with sp := ⟨s.sp.val - 1, Nat.lt_succ_of_lt hlt⟩ })
  else none

/-! ### Faults -/

/-- The HALT procedure, `raise kind(pc, word)` inside a STEP (40_cycle_engine.md R107, 60_exceptions.md R224): applied to the
state BEFORE the instruction, so nothing of the instruction happens; `pc` stays the address of the faulting instruction. -/
def State.raise (s : State) (kind : FaultKind) (word : Option Word) : State :=
  { s with runState := .halted, fault := some { kind := kind, pc := some s.pc, word := word } }

/-- The fault code output (60_exceptions.md R220, decision D18 of the spec): 0 when there is no fault. -/
def faultCode : Option FaultRecord → Nat
  | none => 0
  | some r =>
    match r.kind with
    | .unknownOpcode => 1
    | .stackOverflow => 2
    | .stackUnderflow => 3
    | .memoryOutOfBounds => 4
    | .romTooLarge => 5

/-! ### The random byte (46_random.md R201) -/

/-- The byte the next executed RND receives: the driver's, if it has supplied one, else a free byte (log 2). -/
def State.randByte (s : State) : Byte :=
  match s.randInputs with
  | [] => Config.randByte s.randDraws
  | r :: _ => r

/-- The state once that byte is consumed: an executed RND consumes one, nothing else does (46_random.md R201; log 2). -/
def State.consumeRand (s : State) : State :=
  match s.randInputs with
  | [] => { s with randDraws := s.randDraws + 1 }
  | _ :: rest => { s with randInputs := rest }

end Sys2Proof.Machine
end

