-- ==== Sys2Proof/Machine/Operands.lean ====
section
/-! DEFINITION. The operand forms: effective addresses (20_memory.md R57), zero-extended immediates (30_encoding.md R80), the
font address (43_memory_index.md R162), key codes (47_input.md R209), decimal digits (43_memory_index.md R163) and the ranges
V0..VX of the bulk instructions (43_memory_index.md R164, R165). -/

namespace Sys2Proof.Machine

/-- `zext_16(NNN)` (30_encoding.md R80). -/
def zextAddr (nnn : Addr) : Word := nnn.setWidth 16

/-- `zext_16(v)` of a byte. -/
def zextByte (v : Byte) : Word := v.setWidth 16

/-- The effective address `I + k`, an unbounded natural: no wrap at 4096 or at 65536 (20_memory.md R57). -/
def State.effAddr (s : State) (k : Nat) : Nat := s.i.toNat + k

/-- `FONT_BASE + 5 * V[X][3:0]` (43_memory_index.md R162): the low nibble alone selects the glyph. -/
def fontAddr (params : Config.Params) (v : Byte) : Word :=
  BitVec.ofNat 16 (params.fontBase.val + 5 * (v.toNat % 16))

/-- The key code of SKP and SKNP: the low nibble, the upper one is ignored (47_input.md R209, decision D14 of the spec). -/
def keyCode (v : Byte) : Nibble := v.setWidth 4

/-- `keys[k]` (10_state.md R29). -/
def State.keyDown (s : State) (k : Nibble) : Bool := s.keys[k.toNat]'k.isLt

/-- The digits of LD B: hundreds, tens, units, one byte each (43_memory_index.md R163, decision D30 of the spec). -/
def bcdDigits (v : Byte) : List Byte :=
  [BitVec.ofNat 8 (v.toNat / 100), BitVec.ofNat 8 (v.toNat / 10 % 10), BitVec.ofNat 8 (v.toNat % 10)]

/-- The registers `V[0..X]`, ascending (43_memory_index.md R164). -/
def State.regsUpTo (s : State) (x : Nibble) : List Byte := s.v.toList.take (x.toNat + 1)

/-- `for k in 0 .. X (inclusive, ascending): V[k] <- mem[I + k]` (43_memory_index.md R165). -/
def State.loadRegs (s : State) (x : Nibble) : State :=
  (List.range (x.toNat + 1)).foldl (fun t k => t.setV (BitVec.ofNat 4 k) (t.readByte (t.effAddr k))) s

/-- The `n` sprite bytes from `I` on (45_draw.md R191). -/
def State.spriteBytes (s : State) (n : Nibble) : List Byte :=
  (List.range n.toNat).map (fun row => s.readByte (s.effAddr row))

end Sys2Proof.Machine
end

