-- ==== Sys2Proof/Machine/Flags.lean ====
section
/-! DEFINITION. Every flag computation of 10_state.md R22 but DRW's collision (Draw.lean), and the order of the result write
and the flag write (42_alu.md R140). -/

namespace Sys2Proof.Machine

/-- Carry out of `a + b`: the exact sum exceeds 255 (42_alu.md R147). -/
def carryOut (a b : Byte) : Bool := decide (255 < a.toNat + b.toNat)

/-- No borrow in `a - b`: `a >= b` (42_alu.md R148, R150). -/
def noBorrow (a b : Byte) : Bool := decide (b.toNat ≤ a.toNat)

/-- The bit SHR shifts out, `a[0]` (42_alu.md R149). -/
def lowBit (a : Byte) : Bool := a.getLsbD 0

/-- The bit SHL shifts out, `a[7]` (42_alu.md R151). -/
def highBit (a : Byte) : Bool := a.getLsbD 7

/-- `V[X] <- result`, then `V[15] <- flag`: the flag is written last, so with X = 15 it wins (42_alu.md R140, decision D7 of
the spec). Result and flag are computed from the old registers by the caller. -/
def State.setResultFlag (s : State) (x : Nibble) (result : Byte) (flag : Bool) : State :=
  (s.setV x result).setFlag flag

end Sys2Proof.Machine
end

