-- ==== Sys2Proof/Machine/Alu.lean ====
section
/-! DEFINITION. Register and ALU instructions (42_alu.md). None raises a fault; each advances `pc` by 2. -/

namespace Sys2Proof.Machine

/-- LD Vx, kk (42_alu.md R141). -/
def execLdImm (x : Nibble) (kk : Byte) (s : State) : Host.Outcome State Fault Refusal :=
  .next (s.setV x kk).advance

/-- ADD Vx, kk (42_alu.md R142): modulo 256, VF is not written as a flag. -/
def execAddImm (x : Nibble) (kk : Byte) (s : State) : Host.Outcome State Fault Refusal :=
  .next (s.setV x (s.getV x + kk)).advance

/-- LD Vx, Vy (42_alu.md R143). -/
def execLdReg (x y : Nibble) (s : State) : Host.Outcome State Fault Refusal :=
  .next (s.setV x (s.getV y)).advance

/-- OR Vx, Vy (42_alu.md R144): VF is not written as a flag. -/
def execOrReg (x y : Nibble) (s : State) : Host.Outcome State Fault Refusal :=
  .next (s.setV x (s.getV x ||| s.getV y)).advance

/-- AND Vx, Vy (42_alu.md R145): VF is not written as a flag. -/
def execAndReg (x y : Nibble) (s : State) : Host.Outcome State Fault Refusal :=
  .next (s.setV x (s.getV x &&& s.getV y)).advance

/-- XOR Vx, Vy (42_alu.md R146): VF is not written as a flag. -/
def execXorReg (x y : Nibble) (s : State) : Host.Outcome State Fault Refusal :=
  .next (s.setV x (s.getV x ^^^ s.getV y)).advance

/-- ADD Vx, Vy (42_alu.md R147): VF is the carry out. -/
def execAddReg (x y : Nibble) (s : State) : Host.Outcome State Fault Refusal :=
  .next (s.setResultFlag x (s.getV x + s.getV y) (carryOut (s.getV x) (s.getV y))).advance

/-- SUB Vx, Vy (42_alu.md R148): VF is NOT borrow. -/
def execSub (x y : Nibble) (s : State) : Host.Outcome State Fault Refusal :=
  .next (s.setResultFlag x (s.getV x - s.getV y) (noBorrow (s.getV x) (s.getV y))).advance

/-- SHR Vx (42_alu.md R149): `V[X]` in place, `Y` is ignored; VF is the old bit 0. -/
def execShr (x _y : Nibble) (s : State) : Host.Outcome State Fault Refusal :=
  .next (s.setResultFlag x (s.getV x >>> 1) (lowBit (s.getV x))).advance

/-- SUBN Vx, Vy (42_alu.md R150): `V[Y] - V[X]` into `V[X]`; VF is NOT borrow. -/
def execSubn (x y : Nibble) (s : State) : Host.Outcome State Fault Refusal :=
  .next (s.setResultFlag x (s.getV y - s.getV x) (noBorrow (s.getV y) (s.getV x))).advance

/-- SHL Vx (42_alu.md R151): `V[X]` in place, `Y` is ignored; VF is the old bit 7. -/
def execShl (x _y : Nibble) (s : State) : Host.Outcome State Fault Refusal :=
  .next (s.setResultFlag x (s.getV x <<< 1) (highBit (s.getV x))).advance

end Sys2Proof.Machine
end

