-- ==== Sys2Proof/Machine/Control.lean ====
section
/-! DEFINITION. Control transfer (41_control.md): SYS, RET, JP, CALL, SE, SNE, JP V0. -/

namespace Sys2Proof.Machine

/-- SYS nnn (41_control.md R120): with SYS_MODE = halt it raises UnknownOpcode, with SYS_MODE = ignore it only advances. -/
def execSys (nnn : Addr) (s : State) : Host.Outcome State Fault Refusal :=
  match s.params.sysMode with
  | .halt => .next (s.raise .unknownOpcode (some (encode (.sys nnn))))
  | .ignore => .next s.advance

/-- RET (41_control.md R121): the entry popped is the address to go on at; StackUnderflow on an empty stack. -/
def execRet (s : State) : Host.Outcome State Fault Refusal :=
  match s.pop with
  | none => .next (s.raise .stackUnderflow (some (encode .ret)))
  | some (a, t) => .next (t.jump a)

/-- JP nnn (41_control.md R122). -/
def execJp (nnn : Addr) (s : State) : Host.Outcome State Fault Refusal := .next (s.jump (zextAddr nnn))

/-- CALL nnn (41_control.md R123): pushes `pc + 2`; StackOverflow on a full stack. -/
def execCall (nnn : Addr) (s : State) : Host.Outcome State Fault Refusal :=
  match s.push (s.pc + 2#16) with
  | none => .next (s.raise .stackOverflow (some (encode (.call nnn))))
  | some t => .next (t.jump (zextAddr nnn))

/-- SE Vx, kk (41_control.md R124). -/
def execSeImm (x : Nibble) (kk : Byte) (s : State) : Host.Outcome State Fault Refusal :=
  .next (s.skipIf (s.getV x == kk))

/-- SNE Vx, kk (41_control.md R125). -/
def execSneImm (x : Nibble) (kk : Byte) (s : State) : Host.Outcome State Fault Refusal :=
  .next (s.skipIf (s.getV x != kk))

/-- SE Vx, Vy (41_control.md R126). -/
def execSeReg (x y : Nibble) (s : State) : Host.Outcome State Fault Refusal :=
  .next (s.skipIf (s.getV x == s.getV y))

/-- SNE Vx, Vy (41_control.md R127). -/
def execSneReg (x y : Nibble) (s : State) : Host.Outcome State Fault Refusal :=
  .next (s.skipIf (s.getV x != s.getV y))

/-- JP V0, nnn (41_control.md R128): the sum `NNN + V[0]` is not masked to 12 bits. -/
def execJpV0 (nnn : Addr) (s : State) : Host.Outcome State Fault Refusal :=
  .next (s.jump (zextAddr nnn + zextByte (s.getV 0x0#4)))

end Sys2Proof.Machine
end

