-- ==== Sys2Proof/Machine/Draw.lean ====
section
/-! DEFINITION. The display instructions CLS and DRW (45_draw.md). -/

namespace Sys2Proof.Machine

/-- `FB[y][x]` (00_scope.md R7). -/
def pixel (fb : Framebuffer) (y : Fin 32) (x : Fin 64) : Bool := fb[y].getLsbD x.val

/-- `FB[y][x] <- FB[y][x] xor 1`. -/
def flipPixel (fb : Framebuffer) (y : Fin 32) (x : Fin 64) : Framebuffer :=
  fb.set y.val (fb[y] ^^^ BitVec.twoPow 64 x.val) y.isLt

/-- A drawing under way: the framebuffer and the collision so far (45_draw.md R191). -/
structure Canvas where
  fb : Framebuffer
  collision : Bool
deriving DecidableEq, Repr

/-- The wrapped coordinates of a sprite bit, per pixel: `(x0 + col) mod 64` and `(y0 + row) mod 32` (45_draw.md R192). -/
def wrapX (x : Nat) : Fin 64 := ⟨x % 64, Nat.mod_lt x (Nat.zero_lt_succ 63)⟩

@[inherit_doc wrapX]
def wrapY (y : Nat) : Fin 32 := ⟨y % 32, Nat.mod_lt y (Nat.zero_lt_succ 31)⟩

/-- The body of R191's inner loop for the sprite bit `bit` that belongs at column `x` and row `y`. -/
def plotBit (bit : Bool) (y x : Nat) (c : Canvas) : Canvas :=
  if bit then
    { fb := flipPixel c.fb (wrapY y) (wrapX x), collision := c.collision || pixel c.fb (wrapY y) (wrapX x) }
  else c

/-- One sprite byte at row `y`: bit 7 is the leftmost pixel (45_draw.md R191, R193). -/
def plotRow (b : Byte) (y x0 : Nat) (c : Canvas) : Canvas :=
  (List.range 8).foldl (fun d col => plotBit (b.getLsbD (7 - col)) y (x0 + col) d) c

/-- The sprite's bytes, one row below the other (45_draw.md R191). -/
def plotSprite (x0 : Nat) : List Byte → Nat → Canvas → Canvas
  | [], _, c => c
  | b :: rest, y, c => plotSprite x0 rest (y + 1) (plotRow b y x0 c)

/-- The blit of DRW: `V[X]` and `V[Y]` are read before VF is written (45_draw.md R191). -/
def State.blit (s : State) (x y n : Nibble) : Canvas :=
  plotSprite (s.getV x).toNat (s.spriteBytes n) (s.getV y).toNat { fb := s.fb, collision := false }

/-- CLS (45_draw.md R190). -/
def execCls (s : State) : Host.Outcome State Fault Refusal :=
  .next (s.setFb (Vector.replicate 32 0#64)).advance

/-- DRW Vx, Vy, d (45_draw.md R191): with N = 0 no address is checked and nothing is drawn (R194). -/
def execDrw (x y n : Nibble) (s : State) : Host.Outcome State Fault Refusal :=
  if n = 0x0#4 || inBounds (s.effAddr (n.toNat - 1)) then
    .next ((s.setFb (s.blit x y n).fb).setFlag (s.blit x y n).collision).advance
  else .next (s.raise .memoryOutOfBounds (some (encode (.drw x y n))))

end Sys2Proof.Machine
end

