-- ==== Sys2Proof/Machine/IndexMem.lean ====
section
/-! DEFINITION. Index-register and memory instructions (43_memory_index.md). Each checks the last address it will use before
it writes anything (20_memory.md R60). -/

namespace Sys2Proof.Machine

/-- LD I, nnn (43_memory_index.md R160). -/
def execLdI (nnn : Addr) (s : State) : Host.Outcome State Fault Refusal :=
  .next (s.setI (zextAddr nnn)).advance

/-- ADD I, Vx (43_memory_index.md R161): modulo 65536, no range check, VF is not written. -/
def execAddIVx (x : Nibble) (s : State) : Host.Outcome State Fault Refusal :=
  .next (s.setI (s.i + zextByte (s.getV x))).advance

/-- LD F, Vx (43_memory_index.md R162): no memory access. -/
def execLdFVx (x : Nibble) (s : State) : Host.Outcome State Fault Refusal :=
  .next (s.setI (fontAddr s.params (s.getV x))).advance

/-- LD B, Vx (43_memory_index.md R163): the three decimal digits to `I`, `I+1`, `I+2`. -/
def execLdBVx (x : Nibble) (s : State) : Host.Outcome State Fault Refusal :=
  if inBounds (s.effAddr 2) then .next (s.writeBytes (s.effAddr 0) (bcdDigits (s.getV x))).advance
  else .next (s.raise .memoryOutOfBounds (some (encode (.ldBVx x))))

/-- LD [I], Vx (43_memory_index.md R164): V0..VX to `I .. I+X`; `I` is not changed. -/
def execLdMemVx (x : Nibble) (s : State) : Host.Outcome State Fault Refusal :=
  if inBounds (s.effAddr x.toNat) then .next (s.writeBytes (s.effAddr 0) (s.regsUpTo x)).advance
  else .next (s.raise .memoryOutOfBounds (some (encode (.ldMemVx x))))

/-- LD Vx, [I] (43_memory_index.md R165): `I .. I+X` to V0..VX; `I` is not changed. -/
def execLdVxMem (x : Nibble) (s : State) : Host.Outcome State Fault Refusal :=
  if inBounds (s.effAddr x.toNat) then .next (s.loadRegs x).advance
  else .next (s.raise .memoryOutOfBounds (some (encode (.ldVxMem x))))

end Sys2Proof.Machine
end

