-- ==== Sys2Proof/Machine/Input.lean ====
section
/-! DEFINITION. The keypad instructions (47_input.md), the poll of a waiting STEP (40_cycle_engine.md R102) and the KEY event
(40_cycle_engine.md R111). -/

namespace Sys2Proof.Machine

/-- SKP Vx (47_input.md R205, R209). -/
def execSkp (x : Nibble) (s : State) : Host.Outcome State Fault Refusal :=
  .next (s.skipIf (s.keyDown (keyCode (s.getV x))))

/-- SKNP Vx (47_input.md R206, R209). -/
def execSknp (x : Nibble) (s : State) : Host.Outcome State Fault Refusal :=
  .next (s.skipIf (!s.keyDown (keyCode (s.getV x))))

/-- `wait_reg <- x; run_state <- WAITING_FOR_KEY`. -/
def State.beginWait (s : State) (x : Nibble) : State := { s with waitReg := x, runState := .waitingForKey }

/-- LD Vx, K (47_input.md R207): the executing STEP looks at no key and writes no register; `pc` advances now. -/
def execLdVxK (x : Nibble) (s : State) : Host.Outcome State Fault Refusal := .next (s.beginWait x).advance

/-- The least code from `k` on whose flag is down (40_cycle_engine.md R102). -/
def firstDown : List Bool → Nat → Option Nat
  | [], _ => none
  | down :: rest, k => if down then some k else firstDown rest (k + 1)

/-- The STEP in WAITING_FOR_KEY (40_cycle_engine.md R102): the least key that is down is written into `V[wait_reg]` and the
engine runs again; with no key down nothing changes. No fetch, no instruction, `pc` untouched. -/
def State.pollKeys (s : State) : State :=
  match firstDown s.keys.toList 0 with
  | none => s
  | some k => { s.setV s.waitReg (BitVec.ofNat 8 k) with runState := .running }

/-- The KEY event (40_cycle_engine.md R111): `keys[k] <- down`, nothing else. -/
def State.setKey (s : State) (k : Nibble) (down : Bool) : State :=
  { s with keys := s.keys.set k.toNat down k.isLt }

end Sys2Proof.Machine
end

