-- ==== Sys2Proof/Machine/Random.lean ====
section
/-! DEFINITION. RND (46_random.md). -/

namespace Sys2Proof.Machine

/-- RND Vx, kk (46_random.md R200): the random byte, one fresh byte for each executed RND (R201; log 2), and NN. -/
def execRnd (x : Nibble) (kk : Byte) (s : State) : Host.Outcome State Fault Refusal :=
  .next (s.consumeRand.setV x (s.randByte &&& kk)).advance

end Sys2Proof.Machine
end

