-- ==== Sys2Proof/Machine/Timers.lean ====
section
/-! DEFINITION. The timer instructions and the TICK event (44_timers.md). -/

namespace Sys2Proof.Machine

/-- LD Vx, DT (44_timers.md R180). -/
def execLdVxDt (x : Nibble) (s : State) : Host.Outcome State Fault Refusal := .next (s.setV x s.dt).advance

/-- LD DT, Vx (44_timers.md R181). -/
def execLdDtVx (x : Nibble) (s : State) : Host.Outcome State Fault Refusal := .next (s.setDt (s.getV x)).advance

/-- LD ST, Vx (44_timers.md R182). -/
def execLdStVx (x : Nibble) (s : State) : Host.Outcome State Fault Refusal := .next (s.setSt (s.getV x)).advance

/-- One timer, one tick: down by 1, floored at 0 (44_timers.md R183). -/
def countDown (t : Byte) : Byte := if t = 0x00#8 then t else t - 1#8

/-- The TICK event (44_timers.md R183): both timers, in every run state alike (R185). -/
def State.tick (s : State) : State := { s with dt := countDown s.dt, st := countDown s.st }

/-- The output `tone_active`, `ST > 0`, not latched (44_timers.md R184). -/
def State.toneActive (s : State) : Bool := decide (0 < s.st.toNat)

end Sys2Proof.Machine
end

