-- ==== Sys2Proof/Machine/Engine.lean ====
section
/-! DEFINITION. Fetching an instruction (40_cycle_engine.md R103), loading an image (70_reset_and_hazards.md R251), the RESET
event (70_reset_and_hazards.md R250), and putting one instruction where the next STEP fetches. -/

namespace Sys2Proof.Machine

/-- The fetch of a RUNNING STEP: two bytes at `pc` and `pc + 1`, high byte first; none stands for `raise MemoryOutOfBounds`,
when either byte is out of range (40_cycle_engine.md R103, 20_memory.md R54, R57). -/
def State.fetch (s : State) : Option Word :=
  match s.memRead s.pc.toNat, s.memRead (s.pc.toNat + 1) with
  | some hi, some lo => some (wordOfBytes hi lo)
  | none, _ => none
  | some _, none => none

/-- The RESET event (70_reset_and_hazards.md R250): every state element to its reset value. The parameters are no state and
stay; free bytes already drawn are not drawn again (log 1, log 2). -/
def State.doReset (s : State) : State := State.resetWith s.params s.randDraws

/-- LOAD of an image that fits: `mem[0x200 + k] <- image[k]` (70_reset_and_hazards.md R251). -/
def State.loadImage (s : State) (image : List Byte) : State := s.writeBytes Config.progBase image

/-- LOAD of an image that does not fit: HALTED with `RomTooLarge`, no byte of memory written (70_reset_and_hazards.md R251). -/
def State.rejectImage (s : State) : State :=
  { s with runState := .halted, fault := some { kind := .romTooLarge, pc := none, word := none } }

/-- `s` with the word `w` where the next STEP fetches it. A STEP fetches only in RUNNING and only at `pc <= 0xFFE`
(40_cycle_engine.md R103), so the run state is RUNNING, no fault is recorded (10_state.md R31), and a `pc` from which nothing
can be fetched becomes `ENTRY_PC` (log 10). -/
def State.placeWord (s : State) (w : Word) : State :=
  let addr : Word := if s.pc.toNat ≤ 0xFFE then s.pc else Config.entryPc
  { s.writeBytes addr.toNat (bytesOfWord w) with pc := addr, runState := .running, fault := none }

end Sys2Proof.Machine
end

