-- ==== Sys2Proof/Machine/Step.lean ====
section
/-! DEFINITION. The STEP event (40_cycle_engine.md R101 to R107, R115), and the host's way to place an instruction. -/

namespace Sys2Proof.Machine

/-- One STEP (40_cycle_engine.md R115). HALTED: rejected with `AlreadyHalted` (R101). WAITING_FOR_KEY: the key poll (R102).
RUNNING: fetch (R103), decode (R104), execute (R105); a fault of any stage is the HALT procedure (R107; log 3). -/
def step (s : State) : Host.Outcome State Fault Refusal :=
  match s.runState with
  | .halted => .fault (.alreadyHalted s.fault)
  | .waitingForKey => .next s.pollKeys
  | .running =>
    match s.fetch with
    | none => .next (s.raise .memoryOutOfBounds none)
    | some w =>
      match decodeWord w with
      | .unknownOpcode => .next (s.raise .unknownOpcode (some w))
      | .op i => exec i s

/-- `s` with the instruction word `w`, numbered as spec/opcode_table.json numbers it, where `step` fetches next (log 10). -/
def State.withFetchWord (s : State) (nbits w : Nat) : State := s.placeWord (tableWord nbits w)

end Sys2Proof.Machine
end

