-- ==== Sys2Proof/Machine/Events.lean ====
section
/-! DEFINITION. The five events by which alone the block changes state (40_cycle_engine.md R100), what each STEP reports
(R106, R108), and runs of events. -/

namespace Sys2Proof.Machine

/-- The events (40_cycle_engine.md R100). -/
inductive Event where
  | reset
  | load (image : List Byte)
  | step (rand : Byte)
  | tick
  | key (k : Nibble) (down : Bool)
deriving DecidableEq, Repr

/-- What an event returns (40_cycle_engine.md R108, 70_reset_and_hazards.md R251). -/
inductive Response where
  /-- `Ok(redraw)`, of a STEP (40_cycle_engine.md R106, R108). -/
  | ok (redraw : Bool)
  /-- `Ok`, of a LOAD (70_reset_and_hazards.md R251). -/
  | loaded
  /-- RESET, TICK and KEY, to which the spec gives no result. DESIGN CHOICE, safe (log 21). -/
  | noResult
  /-- `Error(kind, pc, word)`. -/
  | error (record : FaultRecord)
  /-- `Error(AlreadyHalted)` with the stored record (R101). -/
  | alreadyHalted (record : Option FaultRecord)
  /-- The model gives the event no meaning; no state changes. -/
  | refused (reason : Refusal)
deriving DecidableEq, Repr

/-- The block and what its driver must know to keep LOAD's rule: whether the previous event was RESET
(70_reset_and_hazards.md R251). DESIGN CHOICE, safe (log 6). -/
structure Session where
  state : State
  loadable : Bool
deriving DecidableEq, Repr

/-- The instructions that set the redraw indication: CLS and DRW, and no other (40_cycle_engine.md R106). -/
def setsRedraw (i : Instr) : Bool :=
  match i with
  | .cls => true
  | .drw _ _ _ => true
  | _ => false

/-- The STEP at `s` executes CLS or DRW, the instruction being complete unless the STEP faults (40_cycle_engine.md R106). -/
def State.redraws (s : State) : Bool :=
  s.runState == .running &&
    (match s.fetch with
    | none => false
    | some w =>
      match decodeWord w with
      | .unknownOpcode => false
      | .op i => setsRedraw i)

/-- The state a STEP leaves: STEP in HALTED changes nothing (40_cycle_engine.md R101). -/
def State.afterStep (s : State) : State :=
  match step s with
  | .next t => t
  | .fault _ => s
  | .refused _ => s

/-- The result of the STEP at `s` (40_cycle_engine.md R108). The redraw bit is an output, not state (10_state.md R32; log 4). -/
def stepResult (s : State) : Response :=
  match step s with
  | .next t =>
    match t.runState, t.fault with
    | .halted, some r => .error r
    | .halted, none => .ok false
    | .running, _ => .ok s.redraws
    | .waitingForKey, _ => .ok s.redraws
  | .fault (.alreadyHalted r) => .alreadyHalted r
  | .refused r => .refused r

/-- STEP(rand): the byte is there for an RND to consume; any other STEP ignores it (40_cycle_engine.md R100; log 2). -/
def State.withRand (s : State) (rand : Byte) : State := { s with randInputs := [rand] }

/-- STEP(rand), the state it leaves. The byte is gone after the STEP, used or not, and `randInputs` is what it was before. -/
def State.afterStepRand (s : State) (rand : Byte) : State :=
  { (s.withRand rand).afterStep with randInputs := s.randInputs }

/-- LOAD(image) (70_reset_and_hazards.md R251). -/
def Session.load (m : Session) (image : List Byte) : Session × Response :=
  if m.loadable then
    if Config.maxImage < image.length then
      ({ state := m.state.rejectImage, loadable := false },
        .error { kind := .romTooLarge, pc := none, word := none })
    else ({ state := m.state.loadImage image, loadable := false }, .loaded)
  else ({ state := m.state, loadable := false }, .refused .loadNotAfterReset)

/-- One event (40_cycle_engine.md R100): atomic, one at a time. -/
def handle (e : Event) (m : Session) : Session × Response :=
  match e with
  | .reset => ({ state := m.state.doReset, loadable := true }, .noResult)
  | .load image => m.load image
  | .step rand =>
    ({ state := m.state.afterStepRand rand, loadable := false }, stepResult (m.state.withRand rand))
  | .tick => ({ state := m.state.tick, loadable := false }, .noResult)
  | .key k down => ({ state := m.state.setKey k down, loadable := false }, .noResult)

/-- A run: events in order, with what each returned (40_cycle_engine.md R100: any order after boot is a legal environment). -/
def runEvents : List Event → Session → Session × List Response
  | [], m => (m, [])
  | e :: rest, m =>
    let r := handle e m
    let rs := runEvents rest r.1
    (rs.1, r.2 :: rs.2)

/-- The block after power-on and RESET, ready for LOAD (70_reset_and_hazards.md R252). -/
def Session.start (params : Config.Params) : Session := { state := State.resetWith params 0, loadable := true }

end Sys2Proof.Machine
end

