-- ==== Sys2Proof/Safety.lean ====
section
/-! DEFINITION. What the claims call a legal state (the invariant every event keeps), a completed instruction, and a machine
that goes on. -/

namespace Sys2Proof.Machine

/-- The fault record names no `pc` (RomTooLarge) or the `pc` the engine still holds (40_cycle_engine.md R107, 10_state.md R31). -/
def State.faultPcOk (s : State) : Bool :=
  match s.fault with
  | none => true
  | some r => r.pc == none || r.pc == some s.pc

/-- The invariant of the block: memory in its canonical form; `fault != none` if and only if HALTED (10_state.md R31); the
record's `pc` is the engine's (40_cycle_engine.md R107); `pc` never above 0x10FE (10_state.md R24); no stack entry above 0x1000
(41_control.md R121, R123). -/
abbrev State.Inv (s : State) : Prop :=
  memoryWf s.params s.mem = true ∧ (s.fault.isSome = true ↔ s.runState = .halted) ∧ s.faultPcOk = true ∧
    s.pc.toNat ≤ 0x10FE ∧ ∀ k : Fin 16, s.stack[k].toNat ≤ 0x1000

/-- The STEP at `s` fetches and executes the instruction `i` (40_cycle_engine.md R103 to R105). -/
abbrev State.Executes (s : State) (i : Instr) : Prop :=
  s.runState = .running ∧ ∃ w, s.fetch = some w ∧ decodeWord w = .op i

/-- The machine goes on: not HALTED (10_state.md R30). -/
abbrev State.Live (s : State) : Prop := s.runState ≠ .halted

/-- `t` is `s` with other general registers and another `pc`: every other element is the same. -/
abbrev SameButRegsPc (s t : State) : Prop := t = { s with v := t.v, pc := t.pc }

/-- `t` is `s` but for `pc`. -/
abbrev SameButPc (s t : State) : Prop := t = { s with pc := t.pc }

/-- `t` is `s` but for `I` and `pc`. -/
abbrev SameButIPc (s t : State) : Prop := t = { s with i := t.i, pc := t.pc }

/-- `t` is `s` but for memory and `pc`. -/
abbrev SameButMemPc (s t : State) : Prop := t = { s with mem := t.mem, pc := t.pc }

/-- The faulting end of a STEP (40_cycle_engine.md R107): nothing but the run state and the fault record differs. -/
abbrev HaltedBy (s t : State) (kind : FaultKind) (word : Option Word) : Prop :=
  t = { s with runState := .halted, fault := some { kind := kind, pc := some s.pc, word := word } }

/-- One row of the fault table of 60_exceptions.md R220 that a RUNNING STEP can meet, with the word it records (R222): the
fetch, the decoder, and the one condition each instruction has (R223). -/
def FaultRow (s : State) (kind : FaultKind) (word : Option Word) : Prop :=
  (0xFFF ≤ s.pc.toNat ∧ kind = .memoryOutOfBounds ∧ word = none) ∨
  ∃ w, s.fetch = some w ∧ word = some w ∧
    ((decodeWord w = .unknownOpcode ∧ kind = .unknownOpcode) ∨
     (∃ nnn, decodeWord w = .op (.sys nnn) ∧ s.params.sysMode = .halt ∧ kind = .unknownOpcode) ∨
     (∃ nnn, decodeWord w = .op (.call nnn) ∧ s.sp.val = 16 ∧ kind = .stackOverflow) ∨
     (decodeWord w = .op .ret ∧ s.sp.val = 0 ∧ kind = .stackUnderflow) ∨
     (∃ x y n, decodeWord w = .op (.drw x y n) ∧ 0 < n.toNat ∧ 0xFFF < s.i.toNat + n.toNat - 1 ∧
        kind = .memoryOutOfBounds) ∨
     (∃ x, decodeWord w = .op (.ldBVx x) ∧ 0xFFF < s.i.toNat + 2 ∧ kind = .memoryOutOfBounds) ∨
     (∃ x, (decodeWord w = .op (.ldMemVx x) ∨ decodeWord w = .op (.ldVxMem x)) ∧ 0xFFF < s.i.toNat + x.toNat ∧
        kind = .memoryOutOfBounds))

/-- The font table of 20_memory.md R53 as it is printed: one row of 5 bytes per digit. -/
def fontGlyphs : List (List Byte) :=
  [[0xF0, 0x90, 0x90, 0x90, 0xF0], [0x20, 0x60, 0x20, 0x20, 0x70], [0xF0, 0x10, 0xF0, 0x80, 0xF0],
   [0xF0, 0x10, 0xF0, 0x10, 0xF0], [0x90, 0x90, 0xF0, 0x10, 0x10], [0xF0, 0x80, 0xF0, 0x10, 0xF0],
   [0xF0, 0x80, 0xF0, 0x90, 0xF0], [0xF0, 0x10, 0x20, 0x40, 0x40]] ++
  [[0xF0, 0x90, 0xF0, 0x90, 0xF0], [0xF0, 0x90, 0xF0, 0x10, 0xF0], [0xF0, 0x90, 0xF0, 0x90, 0x90],
   [0xE0, 0x90, 0xE0, 0x90, 0xE0], [0xF0, 0x80, 0x80, 0x80, 0xF0], [0xE0, 0x90, 0x90, 0x90, 0xE0],
   [0xF0, 0x80, 0xF0, 0x80, 0xF0], [0xF0, 0x80, 0xF0, 0x80, 0x80]]

/-- Row `r` of the glyph of digit `d` (20_memory.md R53); 0x00 where the table has no such row. -/
def fontByte (d r : Nat) : Byte := (fontGlyphs.getD d []).getD r 0x00#8

/-- Executing `i` to completion writes `V[r]` (10_state.md R21, R22): `r` is the X of an instruction that writes `V[X]`, is up to
the X of LD Vx, [I], or is 15 and `i` writes the flag. LD Vx, K writes its register in a later STEP (47_input.md R208). -/
def WritesV (i : Instr) (r : Nibble) : Prop :=
  (∃ kk, i = .ldImm r kk ∨ i = .addImm r kk ∨ i = .rnd r kk) ∨
  (∃ y, i = .ldReg r y ∨ i = .orReg r y ∨ i = .andReg r y ∨ i = .xorReg r y ∨ i = .addReg r y ∨ i = .sub r y ∨
    i = .shr r y ∨ i = .subn r y ∨ i = .shl r y) ∨
  i = .ldVxDt r ∨ (∃ x, i = .ldVxMem x ∧ r.toNat ≤ x.toNat) ∨
  (r = 0xF#4 ∧ ((∃ x y, i = .addReg x y ∨ i = .sub x y ∨ i = .shr x y ∨ i = .subn x y ∨ i = .shl x y) ∨
    ∃ x y n, i = .drw x y n))

/-- The instructions that set `pc` themselves: jumps, CALL, RET and the skips (40_cycle_engine.md R105). -/
def SetsPc (i : Instr) : Prop :=
  (∃ nnn, i = .jp nnn ∨ i = .jpV0 nnn ∨ i = .call nnn) ∨ i = .ret ∨
  (∃ x kk, i = .seImm x kk ∨ i = .sneImm x kk) ∨ (∃ x y, i = .seReg x y ∨ i = .sneReg x y) ∨
  ∃ x, i = .skp x ∨ i = .sknp x

/-- A set bit of the sprite of `DRW Vx, Vy, n` at `s` belongs at row `py` and column `px` (45_draw.md R191, R192, R193): bit
`7 - col` of sprite byte `row` goes to column `(V[X] + col) mod 64` of row `(V[Y] + row) mod 32`. -/
def SpriteCovers (s : State) (x y n : Nibble) (py : Fin 32) (px : Fin 64) : Prop :=
  ∃ row < n.toNat, ∃ col < 8, ((s.getV y).toNat + row) % 32 = py.val ∧ ((s.getV x).toNat + col) % 64 = px.val ∧
    (s.readByte (s.i.toNat + row)).getLsbD (7 - col) = true

end Sys2Proof.Machine
end

