-- ==== Sys2Proof/Certificates/Slice0/Obligations.lean ====
section
/-! DEFINITION. The statements for the provers, from the numbered rules of the spec. "Spec decision Dn" is an entry of
spec/92_eei_decisions.md, a choice the spec marks as its own. -/

open Sys2Proof Sys2Proof.Machine

/-! ### Encoding (30_encoding.md) -/

/-- R71, R74, R78: no field of an instruction is dropped by its word, and decoding it, as a word or as the first two bytes of
any bytes, gives the instruction back. The patterns are spec decisions D1, D2, D3. -/
def Obligations.EncodeThenDecodeGivesTheInstruction : Prop :=
  ∀ i : Instr, i.wf = true →
    decodeWord (encode i) = .op i ∧ ∀ rest, decode (bytesOfWord (encode i) ++ rest) = .op i rest

/-- R73, R75, R77: a decoded word is the word of its instruction, but for the ignored low nibble of OP 5 and OP 9 (spec
decision D5), and what the decoder answers is well-formed (`SYS` never stands for 0x00E0 or 0x00EE). -/
def Obligations.DecodeThenEncodeGivesTheWord : Prop :=
  ∀ (w : Word) (i : Instr), decodeWord w = .op i →
    i.wf = true ∧ encode i = if fieldOp w = 0x5#4 ∨ fieldOp w = 0x9#4 then w &&& 0xFFF0#16 else w

/-- R76 (which the spec derives from R73 to R75): the unknown words, listed. -/
def Obligations.UnknownWordsAreTheListedOnes : Prop :=
  ∀ w : Word, decodeWord w = .unknownOpcode ↔
    (fieldOp w = 0x8#4 ∧ fieldN w ∈ [0x8#4, 0x9#4, 0xA#4, 0xB#4, 0xC#4, 0xD#4, 0xF#4]) ∨
    (fieldOp w = 0xE#4 ∧ fieldNN w ∉ [0x9E#8, 0xA1#8]) ∨
    (fieldOp w = 0xF#4 ∧
      fieldNN w ∉ [0x07#8, 0x0A#8, 0x15#8, 0x18#8, 0x1E#8, 0x29#8, 0x33#8, 0x55#8, 0x65#8])

/-- R73, R74: a word decodes to an instruction of a row exactly when the row's mask and match select it (SYS: except 0x00E0 and
0x00EE), so no word is selected by two rows. Masks and matches are spec decision D3 (D5 for rows 8 and 20). -/
def Obligations.MaskAndMatchSelectTheDecodedRow : Prop :=
  ∀ (w : Word) (j : Instr),
    (w &&& rowMask j = rowMatch j ∧ ((∃ nnn, j = .sys nnn) → w ≠ 0x00E0#16 ∧ w ≠ 0x00EE#16)) ↔
      ∃ i, decodeWord w = .op i ∧ rowMask i = rowMask j ∧ rowMatch i = rowMatch j

/-- Words of 95_test_vectors.md T20 and T21, one or more per family: a sanity statement. -/
def Obligations.SampleWordsDecode : Prop :=
  decodeWord 0x00E1#16 = .op (.sys 0x0E1#12) ∧ decodeWord 0x3A42#16 = .op (.seImm 0xA#4 0x42#8) ∧
  decodeWord 0x5121#16 = .op (.seReg 0x1#4 0x2#4) ∧ decodeWord 0x8124#16 = .op (.addReg 0x1#4 0x2#4) ∧
  decodeWord 0xA123#16 = .op (.ldI 0x123#12) ∧ decodeWord 0xF255#16 = .op (.ldMemVx 0x2#4) ∧
  decodeWord 0xFA15#16 = .op (.ldDtVx 0xA#4) ∧ decodeWord 0xD123#16 = .op (.drw 0x1#4 0x2#4 0x3#4) ∧
  decodeWord 0xC0FF#16 = .op (.rnd 0x0#4 0xFF#8) ∧ decodeWord 0xEFA1#16 = .op (.sknp 0xF#4) ∧
  decodeWord 0x812F#16 = .unknownOpcode ∧ decodeWord 0xF075#16 = .unknownOpcode

/-! ### The engine (40_cycle_engine.md, 60_exceptions.md) -/

/-- R103 to R105, R115: a RUNNING STEP whose bytes at `pc` decode to `i` is `exec i` at the very same state; nothing is added
around it. The byte order is spec decision D1. -/
def Obligations.StepRunsTheDecodedInstruction : Prop :=
  ∀ (s : State) (i : Instr), s.runState = .running → s.pc.toNat ≤ 0xFFE →
    decodeWord (s.readByte s.pc.toNat ++ s.readByte (s.pc.toNat + 1)) = .op i → step s = exec i s

/-- R103: two bytes at `pc`, high byte first, at any `pc`, odd ones included; MemoryOutOfBounds with the `pc` and no word for
every `pc >= 0xFFF`. -/
def Obligations.FetchReadsTwoBytesOrHalts : Prop :=
  (∀ s : State, s.pc.toNat ≤ 0xFFE →
    s.fetch = some (s.readByte s.pc.toNat ++ s.readByte (s.pc.toNat + 1))) ∧
  (∀ s : State, s.runState = .running → 0xFFF ≤ s.pc.toNat →
    ∃ t, step s = .next t ∧ HaltedBy s t .memoryOutOfBounds none)

/-- R104: the fetched word is decoded, and an unknown one halts the block and is named with its address. -/
def Obligations.UnknownOpcodeHaltsAndIsNamed : Prop :=
  ∀ (s : State) (w : Word), s.runState = .running → s.fetch = some w →
    match decodeWord w with
    | .unknownOpcode => ∃ t, step s = .next t ∧ HaltedBy s t .unknownOpcode (some w)
    | .op i => step s = exec i s

/-- R101: a STEP in HALTED is rejected with the stored record and changes nothing; no event but RESET leaves HALTED. The name
AlreadyHalted is spec decision D18. -/
def Obligations.HaltedRejectsStepsUntilReset : Prop :=
  (∀ s : State, s.runState = .halted → step s = .fault (.alreadyHalted s.fault)) ∧
  (∀ (m : Session) (rand : Byte), m.state.runState = .halted →
    (handle (.step rand) m).1.state = m.state ∧ (handle (.step rand) m).2 = .alreadyHalted m.state.fault) ∧
  (∀ (e : Event) (m : Session), m.state.runState = .halted →
    (handle e m).1.state.runState ≠ .halted → e = .reset)

/-- R102: with no key down a waiting STEP changes nothing; else the least key that is down goes to `V[wait_reg]`, the engine
runs again, and nothing else changes, `pc` included. Level-sensitive poll and lowest key are spec decision D16. -/
def Obligations.WaitingStepPollsTheKeys : Prop :=
  ∀ s : State, s.runState = .waitingForKey →
    ((∀ k, s.keyDown k = false) → step s = .next s) ∧
    ∀ k : Nibble, s.keyDown k = true → (∀ j : Nibble, j.toNat < k.toNat → s.keyDown j = false) →
      ∃ t, step s = .next t ∧ t = { s with v := t.v, runState := .running } ∧
        ∀ r, t.getV r = if r = s.waitReg then BitVec.ofNat 8 k.toNat else s.getV r

/-- R107, R222: a STEP that halts changes nothing but the run state and the record, and the record names the `pc` the engine
keeps and, but for a fetch fault, the fetched word. Precision is spec decision D17. -/
def Obligations.FaultingStepIsPrecise : Prop :=
  ∀ s t : State, s.runState ≠ .halted → step s = .next t → t.runState = .halted →
    s.runState = .running ∧ ∃ kind, HaltedBy s t kind s.fetch ∧ kind ≠ .romTooLarge

/-- R220, R223: a RUNNING STEP faults exactly when a row of the fault table applies, with that row's kind and word; in every
other case it goes on and records nothing. SYS in the table is spec decision D4, precision D17. -/
def Obligations.StepFaultsExactlyByTheFaultTable : Prop :=
  ∀ s : State, s.runState = .running →
    (∀ kind word, FaultRow s kind word → ∃ t, step s = .next t ∧ HaltedBy s t kind word) ∧
    ((¬∃ kind word, FaultRow s kind word) → ∃ t, step s = .next t ∧ t.Live ∧ t.fault = s.fault)

/-- R220, R107: no instruction stops the model; each answers a next state in every state and for every operand (a fault of the
spec is entered), and so does every STEP but one in HALTED. -/
def Obligations.EveryInstructionAnswersANextState : Prop :=
  (∀ (i : Instr) (s : State), ∃ t, exec i s = .next t) ∧ ∀ s : State, s.Live → ∃ t, step s = .next t

/-- R106, R107, R108: what a RUNNING STEP reports, whatever stage it ends in: when it halts, the error with the record it stored,
which names the `pc` and the fetched word; else it has executed an instruction, and redraw = 1 exactly for CLS and DRW. A waiting
STEP reports redraw = 0. The bit's being a result is spec decision D23, precision D17; the result's form is the model's (log 4). -/
def Obligations.RedrawIsReportedByClsAndDrwAlone : Prop :=
  (∀ s t : State, s.runState = .running → step s = .next t → t.runState = .halted →
    ∃ kind, t.fault = some { kind := kind, pc := some s.pc, word := s.fetch } ∧
      stepResult s = .error { kind := kind, pc := some s.pc, word := s.fetch }) ∧
  (∀ s t : State, s.runState = .running → step s = .next t → t.Live →
    ∃ i, s.Executes i ∧ (stepResult s = .ok true ↔ i = .cls ∨ ∃ x y n, i = .drw x y n) ∧
      (stepResult s = .ok true ∨ stepResult s = .ok false)) ∧
  ∀ s : State, s.runState = .waitingForKey → stepResult s = .ok false

/-- R20 (its column "written by"), R21, R59, R105, R107, R112: which instruction a STEP must execute for an element to change;
keys never change in a STEP, the timers only by the timer moves, memory only by the two stores, and `pc` goes to `pc + 2` unless
the instruction sets it or the STEP halts. Spec decisions D9, D10, D11 (flags left alone), D16 (`pc` in LD Vx, K) and D17
(precision). `randInputs` and `randDraws` (log 2) and `params` (log 1) are the model's own fields. -/
def Obligations.StepWritesOnlyWhatTheStateTableLists : Prop :=
  ∀ (s t : State) (i : Instr), s.Executes i → step s = .next t →
    ((∃ a, t.readByte a ≠ s.readByte a) → ∃ x, i = .ldBVx x ∨ i = .ldMemVx x) ∧
    (∀ r, t.getV r ≠ s.getV r → WritesV i r) ∧
    (t.i ≠ s.i → (∃ nnn, i = .ldI nnn) ∨ ∃ x, i = .addIVx x ∨ i = .ldFVx x) ∧
    (t.runState = .halted → t.pc = s.pc) ∧
    (t.Live → t.pc ≠ s.pc + 2#16 → SetsPc i) ∧
    (t.stack ≠ s.stack → ∃ nnn, i = .call nnn) ∧
    (t.sp ≠ s.sp → i = .ret ∨ ∃ nnn, i = .call nnn) ∧
    (t.dt ≠ s.dt → ∃ x, i = .ldDtVx x) ∧
    (t.st ≠ s.st → ∃ x, i = .ldStVx x) ∧
    (t.fb ≠ s.fb → i = .cls ∨ ∃ x y n, i = .drw x y n) ∧
    (t.runState ≠ s.runState → t.runState = .halted ∨ ∃ x, i = .ldVxK x) ∧
    (t.waitReg ≠ s.waitReg → ∃ x, i = .ldVxK x) ∧
    (t.fault ≠ s.fault → t.runState = .halted) ∧
    (t.randInputs ≠ s.randInputs ∨ t.randDraws ≠ s.randDraws → ∃ x kk, i = .rnd x kk) ∧
    t.keys = s.keys ∧ t.params = s.params

/-- R22: VF changes only by the six flag instructions or as the destination register an instruction names. That the other
instructions leave it alone is spec decisions D9, D10, D11. -/
def Obligations.VfChangesOnlyAsFlagOrDestination : Prop :=
  ∀ (i : Instr) (s t : State), exec i s = .next t → t.getV 0xF#4 ≠ s.getV 0xF#4 →
    (∃ x y, i = .addReg x y ∨ i = .sub x y ∨ i = .shr x y ∨ i = .subn x y ∨ i = .shl x y) ∨
    (∃ x y n, i = .drw x y n) ∨
    (∃ kk, i = .ldImm 0xF#4 kk ∨ i = .addImm 0xF#4 kk ∨ i = .rnd 0xF#4 kk) ∨
    (∃ y, i = .ldReg 0xF#4 y ∨ i = .orReg 0xF#4 y ∨ i = .andReg 0xF#4 y ∨ i = .xorReg 0xF#4 y) ∨
    i = .ldVxDt 0xF#4 ∨ i = .ldVxMem 0xF#4

/-- R30: the transitions of the run state, over every event. -/
def Obligations.RunStateTransitionsAreTheListedOnes : Prop :=
  ∀ (e : Event) (m : Session), (handle e m).1.state.runState ≠ m.state.runState →
    (e = .reset ∧ (handle e m).1.state.runState = .running) ∨
    (m.state.runState = .running ∧ (handle e m).1.state.runState = .waitingForKey ∧
      (∃ rand, e = .step rand) ∧ ∃ x, m.state.Executes (.ldVxK x) ∧ (handle e m).1.state.waitReg = x) ∨
    (m.state.runState = .waitingForKey ∧ (handle e m).1.state.runState = .running ∧
      (∃ rand, e = .step rand) ∧ ∃ k, m.state.keyDown k = true) ∨
    (m.state.runState = .running ∧ (handle e m).1.state.runState = .halted ∧
      ∃ rand, e = .step rand ∧ ∃ r, (handle e m).2 = .error r) ∨
    ((handle e m).1.state.runState = .halted ∧
      ∃ image, e = .load image ∧ 3584 < image.length ∧ m.loadable = true)

/-- R100, R201: a STEP that does not execute RND ignores its `rand`, in the state it leaves and in what it reports. -/
def Obligations.RandIsIgnoredUnlessRndExecutes : Prop :=
  ∀ (m : Session) (r r' : Byte), (¬∃ x kk, m.state.Executes (.rnd x kk)) →
    handle (.step r) m = handle (.step r') m

/-- R261, R262: a RUNNING STEP of a jump to its own address leaves the entire state unchanged. -/
def Obligations.SelfJumpChangesNothing : Prop :=
  ∀ (s : State) (nnn : Addr), s.Executes (.jp nnn) → s.pc.toNat = nnn.toNat → step s = .next s

/-! ### Invariants -/

/-- R24, R31, R107, R121, R123 and the canonical form of memory (log 8) hold right after reset, for any parameters. -/
def Obligations.ResetStateIsLegal : Prop := ∀ (p : Config.Params) (n : Nat), (State.resetWith p n).Inv

/-- R24, R31, R107, R121, R123 and the canonical form of memory (log 8): every STEP keeps them. The bound on `pc` and the
pairing of record and run state are inferences the spec marks as derived. -/
def Obligations.StepKeepsTheStateLegal : Prop := ∀ s t : State, s.Inv → step s = .next t → t.Inv

/-- The same for all five events of R100, in any session. -/
def Obligations.EveryEventKeepsTheStateLegal : Prop :=
  ∀ (e : Event) (m : Session), m.state.Inv → (handle e m).1.state.Inv

/-! ### Memory and the other events -/

/-- R50, R52, R61: an address up to 0xFFF never faults, one above always does; a byte read is the byte last written there, and
a write leaves every other byte alone. -/
def Obligations.MemoryReadsTheByteLastWritten : Prop :=
  (∀ (s : State) (a : Nat) (b : Byte), 0xFFF < a → s.memRead a = none ∧ s.memWrite a b = none) ∧
  ∀ (s : State) (a : Nat) (b : Byte), a ≤ 0xFFF →
    ∃ t, s.memWrite a b = some t ∧ SameButMemPc s t ∧ t.pc = s.pc ∧
      ∀ m, m ≤ 0xFFF → t.memRead m = some (if m = a then b else s.readByte m)

/-- R65, R255: what LD [I], Vx stores is what the next fetch reads, at any `pc`, the instruction's own bytes included. -/
def Obligations.StoreIsSeenByTheNextFetch : Prop :=
  ∀ (s : State) (x : Nibble) (p : Word), s.i.toNat + x.toNat ≤ 0xFFF → p.toNat ≤ 0xFFE →
    ∃ t, exec (.ldMemVx x) s = .next t ∧
      (t.jump p).fetch = some
        ((if s.i.toNat ≤ p.toNat ∧ p.toNat ≤ s.i.toNat + x.toNat
            then s.getV (BitVec.ofNat 4 (p.toNat - s.i.toNat)) else s.readByte p.toNat) ++
         (if s.i.toNat ≤ p.toNat + 1 ∧ p.toNat + 1 ≤ s.i.toNat + x.toNat
            then s.getV (BitVec.ofNat 4 (p.toNat + 1 - s.i.toNat)) else s.readByte (p.toNat + 1)))

/-- R36, R250: RESET, from any session, leaves the listed values, every byte of memory among them. The values are spec decisions
D19 and D20, the font's D13. The model's own: the parameters stay (log 1), RESET reports no result (log 21), and LOAD is allowed
next, as R251 (spec decision D21) has it, by `Session.loadable` (log 6). -/
def Obligations.ResetEventLeavesTheResetValues : Prop :=
  ∀ m : Session, ∃ t, handle .reset m = ({ state := t, loadable := true }, .noResult) ∧
    (∀ r, t.getV r = 0x00#8) ∧ t.i = 0x0000#16 ∧ t.pc = 0x0200#16 ∧ t.sp = 0 ∧ (∀ k : Fin 16, t.stack[k] = 0x0000#16) ∧
    t.dt = 0x00#8 ∧ t.st = 0x00#8 ∧ (∀ y x, pixel t.fb y x = false) ∧ (∀ k, t.keyDown k = false) ∧
    t.runState = .running ∧ t.waitReg = 0x0#4 ∧ t.fault = none ∧ t.params = m.state.params ∧ t.toneActive = false ∧
    (∀ d r, d < 16 → r < 5 → t.readByte (t.params.fontBase.val + 5 * d + r) = fontByte d r) ∧
    ∀ a, a < t.params.fontBase.val ∨ t.params.fontBase.val + 80 ≤ a → t.readByte a = 0x00#8

/-- R53, R36: the font of the reset state, digit by digit and row by row, at any FONT_BASE. The bytes are spec decision D13. -/
def Obligations.FontStandsInMemoryAfterReset : Prop :=
  ∀ (p : Config.Params) (n d r : Nat), d < 16 → r < 5 →
    (State.resetWith p n).readByte (p.fontBase.val + 5 * d + r) = fontByte d r

/-- R251, R37, R68: LOAD right after RESET: an image of at most 3584 bytes is put at 0x200 and nothing else changes; a longer one
halts the block with RomTooLarge and writes no byte. LOAD at any other time is refused. The discipline is spec decision D21; its
form, `Session.loadable` and the refusal, is the model's (log 6). -/
def Obligations.LoadPutsTheImageOrRejectsIt : Prop :=
  ∀ (m : Session) (image : List Byte),
    (m.loadable = true → image.length ≤ 3584 →
      ∃ t, handle (.load image) m = ({ state := t, loadable := false }, .loaded) ∧
        t = { m.state with mem := t.mem } ∧
        ∀ a, t.readByte a =
          if 0x200 ≤ a ∧ a < 0x200 + image.length then image.getD (a - 0x200) 0 else m.state.readByte a) ∧
    (m.loadable = true → 3584 < image.length →
      handle (.load image) m =
        ({ state := { m.state with
             runState := .halted, fault := some { kind := .romTooLarge, pc := none, word := none } },
           loadable := false },
         .error { kind := .romTooLarge, pc := none, word := none })) ∧
    (m.loadable = false →
      handle (.load image) m = ({ state := m.state, loadable := false }, .refused .loadNotAfterReset))

/-- R183, R185: TICK decrements both timers by 1, floored at 0, and changes nothing else, in every run state (spec decision D22).
The model's own: TICK reports no result (log 21), and a LOAD may not follow it (log 6). -/
def Obligations.TickCountsBothTimersDown : Prop :=
  ∀ m : Session, ∃ t, handle .tick m = ({ state := t, loadable := false }, .noResult) ∧
    t = { m.state with dt := t.dt, st := t.st } ∧
    t.dt.toNat = (if 0 < m.state.dt.toNat then m.state.dt.toNat - 1 else 0) ∧
    t.st.toNat = (if 0 < m.state.st.toNat then m.state.st.toNat - 1 else 0)

/-- R111: KEY(k, down) sets `keys[k]` and changes nothing else, in every run state. The model's own: KEY reports no result
(log 21), and a LOAD may not follow it (log 6). -/
def Obligations.KeyEventSetsOneFlag : Prop :=
  ∀ (m : Session) (k : Nibble) (down : Bool),
    ∃ t, handle (.key k down) m = ({ state := t, loadable := false }, .noResult) ∧
      t = { m.state with keys := t.keys } ∧ ∀ j, t.keyDown j = if j = k then down else m.state.keyDown j

/-- The model's own `withFetchWord` (log 10): from ANY state, the next step runs exactly the word's instruction, and every byte
but the two at the `pc` it fetches from is as before. -/
def Obligations.WithFetchWordIsWhatTheNextStepRuns : Prop :=
  ∀ (s : State) (w : Nat) (i : Instr), decodeTableWord 16 w = some i →
    step (s.withFetchWord 16 w) = exec i (s.withFetchWord 16 w) ∧
    (s.pc.toNat ≤ 0xFFE → (s.withFetchWord 16 w).pc = s.pc) ∧
    ∀ a, a ≠ (s.withFetchWord 16 w).pc.toNat → a ≠ (s.withFetchWord 16 w).pc.toNat + 1 →
      (s.withFetchWord 16 w).readByte a = s.readByte a

/-! ### Control transfer (41_control.md): results, frames and completion -/

/-- R120: SYS raises UnknownOpcode with its own word when SYS_MODE = halt, and only advances when SYS_MODE = ignore. Spec
decision D4. -/
def Obligations.SysFollowsSysMode : Prop :=
  ∀ (nnn : Addr) (s : State),
    (s.params.sysMode = .halt →
      ∃ t, exec (.sys nnn) s = .next t ∧ HaltedBy s t .unknownOpcode (some (0x0#4 ++ nnn))) ∧
    (s.params.sysMode = .ignore → ∃ t, exec (.sys nnn) s = .next t ∧ SameButPc s t ∧ t.pc = s.pc + 2#16)

/-- R121: RET pops the address and goes on there; on an empty stack it raises StackUnderflow. -/
def Obligations.RetPopsTheReturnAddress : Prop :=
  ∀ s : State,
    (s.sp.val = 0 → ∃ t, exec .ret s = .next t ∧ HaltedBy s t .stackUnderflow (some 0x00EE#16)) ∧
    ∀ (k : Fin 16), s.sp.val = k.val + 1 →
      ∃ t, exec .ret s = .next t ∧ t = { s with sp := t.sp, pc := t.pc } ∧ t.sp.val = k.val ∧ t.pc = s.stack[k]

/-- R123: CALL stores `pc + 2` in `stack[sp]`, raises `sp` by 1 and goes to NNN; with 16 addresses held it raises
StackOverflow. -/
def Obligations.CallPushesTheReturnAddress : Prop :=
  ∀ (nnn : Addr) (s : State),
    (s.sp.val = 16 → ∃ t, exec (.call nnn) s = .next t ∧ HaltedBy s t .stackOverflow (some (0x2#4 ++ nnn))) ∧
    (s.sp.val < 16 →
      ∃ t, exec (.call nnn) s = .next t ∧ t = { s with stack := t.stack, sp := t.sp, pc := t.pc } ∧
        t.sp.val = s.sp.val + 1 ∧ t.pc.toNat = nnn.toNat ∧
        ∀ k : Fin 16, t.stack[k] = if k.val = s.sp.val then s.pc + 2#16 else s.stack[k])

/-- D0's property quoted in R121: CALL then RET goes on after the CALL with the stack depth it had. -/
def Obligations.CallThenRetComesBack : Prop :=
  ∀ (nnn : Addr) (s : State), s.sp.val < 16 →
    ∃ t u, exec (.call nnn) s = .next t ∧ exec .ret t = .next u ∧ u.pc = s.pc + 2#16 ∧ u.sp = s.sp ∧
      u = { s with stack := u.stack, pc := u.pc }

/-- R122, R128: JP goes to NNN; JP V0 to `NNN + V[0]`, not masked. Spec decisions D6, D12. -/
def Obligations.JumpsSetThePc : Prop :=
  ∀ (nnn : Addr) (s : State),
    (∃ t, exec (.jp nnn) s = .next t ∧ SameButPc s t ∧ t.pc.toNat = nnn.toNat) ∧
    (∃ t, exec (.jpV0 nnn) s = .next t ∧ SameButPc s t ∧ t.pc.toNat = nnn.toNat + (s.getV 0x0#4).toNat)

/-- R124, R125: SE and SNE with an immediate: `pc + 4` when they skip, else `pc + 2`; nothing else changes. Spec decision D6. -/
def Obligations.ImmediateSkips : Prop :=
  ∀ (x : Nibble) (kk : Byte) (s : State),
    (∃ t, exec (.seImm x kk) s = .next t ∧ SameButPc s t ∧
      t.pc = if s.getV x = kk then s.pc + 4#16 else s.pc + 2#16) ∧
    (∃ t, exec (.sneImm x kk) s = .next t ∧ SameButPc s t ∧
      t.pc = if s.getV x = kk then s.pc + 2#16 else s.pc + 4#16)

/-- R126, R127: SE and SNE with registers. Spec decision D6. -/
def Obligations.RegisterSkips : Prop :=
  ∀ (x y : Nibble) (s : State),
    (∃ t, exec (.seReg x y) s = .next t ∧ SameButPc s t ∧
      t.pc = if s.getV x = s.getV y then s.pc + 4#16 else s.pc + 2#16) ∧
    (∃ t, exec (.sneReg x y) s = .next t ∧ SameButPc s t ∧
      t.pc = if s.getV x = s.getV y then s.pc + 2#16 else s.pc + 4#16)

/-! ### Register and ALU (42_alu.md) -/

/-- R141, R142, R143: LD and ADD with an immediate, LD between registers; VF is touched only as the destination. Spec decisions
D6, D10. -/
def Obligations.LoadsAndImmediateAddWriteVx : Prop :=
  ∀ (x y : Nibble) (kk : Byte) (s : State),
    (∃ t, exec (.ldImm x kk) s = .next t ∧ SameButRegsPc s t ∧ t.pc = s.pc + 2#16 ∧
      ∀ r, t.getV r = if r = x then kk else s.getV r) ∧
    (∃ t, exec (.addImm x kk) s = .next t ∧ SameButRegsPc s t ∧ t.pc = s.pc + 2#16 ∧
      ∀ r, (t.getV r).toNat = if r = x then ((s.getV x).toNat + kk.toNat) % 256 else (s.getV r).toNat) ∧
    (∃ t, exec (.ldReg x y) s = .next t ∧ SameButRegsPc s t ∧ t.pc = s.pc + 2#16 ∧
      ∀ r, t.getV r = if r = x then s.getV y else s.getV r)

/-- R144, R145, R146: OR, AND, XOR bit by bit into `V[X]`; VF is touched only as the destination. Spec decisions D6, D9. -/
def Obligations.LogicWritesVxBitByBit : Prop :=
  ∀ (x y : Nibble) (s : State),
    (∃ t, exec (.orReg x y) s = .next t ∧ SameButRegsPc s t ∧ t.pc = s.pc + 2#16 ∧
      ∀ r (b : Nat), (t.getV r).getLsbD b =
        if r = x then ((s.getV x).getLsbD b || (s.getV y).getLsbD b) else (s.getV r).getLsbD b) ∧
    (∃ t, exec (.andReg x y) s = .next t ∧ SameButRegsPc s t ∧ t.pc = s.pc + 2#16 ∧
      ∀ r (b : Nat), (t.getV r).getLsbD b =
        if r = x then ((s.getV x).getLsbD b && (s.getV y).getLsbD b) else (s.getV r).getLsbD b) ∧
    (∃ t, exec (.xorReg x y) s = .next t ∧ SameButRegsPc s t ∧ t.pc = s.pc + 2#16 ∧
      ∀ r (b : Nat), (t.getV r).getLsbD b =
        if r = x then ((s.getV x).getLsbD b ^^ (s.getV y).getLsbD b) else (s.getV r).getLsbD b)

/-- R147: ADD truncates to 8 bits and VF is 1 exactly on unsigned overflow; the flag is written last. -/
def Obligations.AddWritesSumAndCarry : Prop :=
  ∀ (x y : Nibble) (s : State),
    ∃ t, exec (.addReg x y) s = .next t ∧ SameButRegsPc s t ∧ t.pc = s.pc + 2#16 ∧
      ∀ r, (t.getV r).toNat =
        if r = 0xF#4 then (if 255 < (s.getV x).toNat + (s.getV y).toNat then 1 else 0)
        else if r = x then ((s.getV x).toNat + (s.getV y).toNat) % 256 else (s.getV r).toNat

/-- R148: SUB wraps modulo 256 and VF is 1 exactly when there is no borrow. -/
def Obligations.SubWritesDifferenceAndNoBorrow : Prop :=
  ∀ (x y : Nibble) (s : State),
    ∃ t, exec (.sub x y) s = .next t ∧ SameButRegsPc s t ∧ t.pc = s.pc + 2#16 ∧
      ∀ r, (t.getV r).toNat =
        if r = 0xF#4 then (if (s.getV y).toNat ≤ (s.getV x).toNat then 1 else 0)
        else if r = x then ((s.getV x).toNat + 256 - (s.getV y).toNat) % 256 else (s.getV r).toNat

/-- R150: SUBN is the reversed subtraction into `V[X]`. -/
def Obligations.SubnWritesReversedDifference : Prop :=
  ∀ (x y : Nibble) (s : State),
    ∃ t, exec (.subn x y) s = .next t ∧ SameButRegsPc s t ∧ t.pc = s.pc + 2#16 ∧
      ∀ r, (t.getV r).toNat =
        if r = 0xF#4 then (if (s.getV x).toNat ≤ (s.getV y).toNat then 1 else 0)
        else if r = x then ((s.getV y).toNat + 256 - (s.getV x).toNat) % 256 else (s.getV r).toNat

/-- R149, R151: SHR and SHL shift `V[X]` in place by one, whatever Y is, and VF is the bit shifted out, taken before the shift.
In place is spec decision D8. -/
def Obligations.ShiftsWriteVxAndTheBitShiftedOut : Prop :=
  ∀ (x y : Nibble) (s : State),
    (∃ t, exec (.shr x y) s = .next t ∧ SameButRegsPc s t ∧ t.pc = s.pc + 2#16 ∧
      ∀ r, (t.getV r).toNat =
        if r = 0xF#4 then (s.getV x).toNat % 2 else if r = x then (s.getV x).toNat / 2 else (s.getV r).toNat) ∧
    (∃ t, exec (.shl x y) s = .next t ∧ SameButRegsPc s t ∧ t.pc = s.pc + 2#16 ∧
      ∀ r, (t.getV r).toNat =
        if r = 0xF#4 then (s.getV x).toNat / 128
        else if r = x then (s.getV x).toNat * 2 % 256 else (s.getV r).toNat)

/-! ### Index register and memory (43_memory_index.md) -/

/-- R160, R161, R162: LD I, ADD I (modulo 65536, no flag) and LD F write `I` alone. Spec decisions D6, D11, D13, D29. -/
def Obligations.IndexInstructionsWriteI : Prop :=
  ∀ (nnn : Addr) (x : Nibble) (s : State),
    (∃ t, exec (.ldI nnn) s = .next t ∧ SameButIPc s t ∧ t.pc = s.pc + 2#16 ∧ t.i.toNat = nnn.toNat) ∧
    (∃ t, exec (.addIVx x) s = .next t ∧ SameButIPc s t ∧ t.pc = s.pc + 2#16 ∧
      t.i.toNat = (s.i.toNat + (s.getV x).toNat) % 65536) ∧
    (∃ t, exec (.ldFVx x) s = .next t ∧ SameButIPc s t ∧ t.pc = s.pc + 2#16 ∧
      t.i.toNat = s.params.fontBase.val + 5 * ((s.getV x).toNat % 16))

/-- R163, R60: LD B stores hundreds, tens and units at `I`, `I+1`, `I+2` and no other byte; MemoryOutOfBounds, nothing written,
when `I + 2` is above 0xFFF. The digits are spec decision D30. -/
def Obligations.BcdStoresThreeDigits : Prop :=
  ∀ (x : Nibble) (s : State),
    (s.i.toNat + 2 ≤ 0xFFF →
      ∃ t, exec (.ldBVx x) s = .next t ∧ SameButMemPc s t ∧ t.pc = s.pc + 2#16 ∧
        ∀ a, (t.readByte a).toNat =
          if a = s.i.toNat then (s.getV x).toNat / 100
          else if a = s.i.toNat + 1 then (s.getV x).toNat / 10 % 10
          else if a = s.i.toNat + 2 then (s.getV x).toNat % 10 else (s.readByte a).toNat) ∧
    (0xFFF < s.i.toNat + 2 →
      ∃ t, exec (.ldBVx x) s = .next t ∧ HaltedBy s t .memoryOutOfBounds (some (0xF#4 ++ x ++ 0x33#8)))

/-- R164: LD [I], Vx stores V0..VX at `I .. I+X` and no other byte, and keeps `I`; MemoryOutOfBounds, nothing written, when
`I + X` is above 0xFFF. -/
def Obligations.BulkStoreWritesV0ToVx : Prop :=
  ∀ (x : Nibble) (s : State),
    (s.i.toNat + x.toNat ≤ 0xFFF →
      ∃ t, exec (.ldMemVx x) s = .next t ∧ SameButMemPc s t ∧ t.pc = s.pc + 2#16 ∧
        (∀ k : Nibble, k.toNat ≤ x.toNat → t.readByte (s.i.toNat + k.toNat) = s.getV k) ∧
        ∀ a, a < s.i.toNat ∨ s.i.toNat + x.toNat < a → t.readByte a = s.readByte a) ∧
    (0xFFF < s.i.toNat + x.toNat →
      ∃ t, exec (.ldMemVx x) s = .next t ∧ HaltedBy s t .memoryOutOfBounds (some (0xF#4 ++ x ++ 0x55#8)))

/-- R165: LD Vx, [I] loads V0..VX from `I .. I+X`, leaves the registers above VX, and keeps `I`; MemoryOutOfBounds, nothing
written, when `I + X` is above 0xFFF. -/
def Obligations.BulkLoadReadsV0ToVx : Prop :=
  ∀ (x : Nibble) (s : State),
    (s.i.toNat + x.toNat ≤ 0xFFF →
      ∃ t, exec (.ldVxMem x) s = .next t ∧ SameButRegsPc s t ∧ t.pc = s.pc + 2#16 ∧
        ∀ r : Nibble, t.getV r = if r.toNat ≤ x.toNat then s.readByte (s.i.toNat + r.toNat) else s.getV r) ∧
    (0xFFF < s.i.toNat + x.toNat →
      ∃ t, exec (.ldVxMem x) s = .next t ∧ HaltedBy s t .memoryOutOfBounds (some (0xF#4 ++ x ++ 0x65#8)))

/-! ### Timers (44_timers.md) -/

/-- R180, R181, R182, R184: the three timer moves, each writing one element; the tone follows ST at once. Spec decision D6. -/
def Obligations.TimerMoves : Prop :=
  ∀ (x : Nibble) (s : State),
    (∃ t, exec (.ldVxDt x) s = .next t ∧ SameButRegsPc s t ∧ t.pc = s.pc + 2#16 ∧
      ∀ r, t.getV r = if r = x then s.dt else s.getV r) ∧
    (∃ t, exec (.ldDtVx x) s = .next t ∧ t = { s with dt := s.getV x, pc := s.pc + 2#16 }) ∧
    (∃ t, exec (.ldStVx x) s = .next t ∧ t = { s with st := s.getV x, pc := s.pc + 2#16 } ∧
      (t.toneActive = true ↔ s.getV x ≠ 0x00#8))

/-! ### Display (45_draw.md) -/

/-- R190: CLS clears every pixel and changes nothing else but `pc`. Spec decision D6. -/
def Obligations.ClsClearsEveryPixel : Prop :=
  ∀ s : State, ∃ t, exec .cls s = .next t ∧ t = { s with fb := t.fb, pc := t.pc } ∧ t.pc = s.pc + 2#16 ∧
    ∀ y x, pixel t.fb y x = false

/-- R191, R192, R193, R194: DRW toggles exactly the pixels a set sprite bit lands on, each wrapped on its own; VF is 1 exactly
when one of them was set; with N = 0 nothing is drawn and no address is checked. MemoryOutOfBounds, nothing changed, when a
sprite byte lies above 0xFFF. The geometry is spec decision D15. -/
def Obligations.DrwTogglesTheCoveredPixels : Prop :=
  ∀ (x y n : Nibble) (s : State),
    (n = 0x0#4 ∨ s.i.toNat + n.toNat - 1 ≤ 0xFFF →
      ∃ t, exec (.drw x y n) s = .next t ∧ t = { s with v := t.v, fb := t.fb, pc := t.pc } ∧ t.pc = s.pc + 2#16 ∧
        (∀ py px, SpriteCovers s x y n py px → pixel t.fb py px = !pixel s.fb py px) ∧
        (∀ py px, ¬SpriteCovers s x y n py px → pixel t.fb py px = pixel s.fb py px) ∧
        (∀ r, r ≠ 0xF#4 → t.getV r = s.getV r) ∧
        (t.getV 0xF#4 = 0x01#8 ↔ ∃ py px, SpriteCovers s x y n py px ∧ pixel s.fb py px = true) ∧
        (t.getV 0xF#4 = 0x01#8 ∨ t.getV 0xF#4 = 0x00#8)) ∧
    (0 < n.toNat → 0xFFF < s.i.toNat + n.toNat - 1 →
      ∃ t, exec (.drw x y n) s = .next t ∧
        HaltedBy s t .memoryOutOfBounds (some (0xD#4 ++ x ++ y ++ n)))

/-- R194 (b): the same sprite drawn twice at the same place restores the framebuffer. From a clear framebuffer the first draw
collides with nothing, and the second collides if the sprite has any set bit (R194 (b) says the last without naming the clear
framebuffer of D0's example; log 16). -/
def Obligations.DrawingTwiceRestoresTheFramebuffer : Prop :=
  ∀ (x y n : Nibble) (s t : State), (n = 0x0#4 ∨ s.i.toNat + n.toNat - 1 ≤ 0xFFF) → exec (.drw x y n) s = .next t →
    t.getV x = s.getV x → t.getV y = s.getV y →
    ∃ u, exec (.drw x y n) t = .next u ∧ (∀ py px, pixel u.fb py px = pixel s.fb py px) ∧
      ((∀ py px, pixel s.fb py px = false) → (∃ py px, SpriteCovers s x y n py px) →
        t.getV 0xF#4 = 0x00#8 ∧ u.getV 0xF#4 = 0x01#8)

/-! ### Random and keypad (46_random.md, 47_input.md) -/

/-- R200: RND writes `rand and NN`; VF is touched only as the destination. The second half is the event STEP(rand), whose input
`rand` is spec decision D28. The first half is over the model's own source of the byte `exec` draws, `State.randByte` with the
fields `randInputs` and `randDraws` (log 2); that a LOAD may not follow a STEP is log 6. -/
def Obligations.RndMasksTheRandomByte : Prop :=
  (∀ (x : Nibble) (kk : Byte) (s : State),
    ∃ t, exec (.rnd x kk) s = .next t ∧
      t = { s with v := t.v, pc := t.pc, randInputs := t.randInputs, randDraws := t.randDraws } ∧ t.pc = s.pc + 2#16 ∧
      ∀ r, t.getV r = if r = x then s.randByte &&& kk else s.getV r) ∧
  ∀ (x : Nibble) (kk rand : Byte) (m : Session), m.state.Executes (.rnd x kk) →
    ∃ t, handle (.step rand) m = ({ state := t, loadable := false }, .ok false) ∧ SameButRegsPc m.state t ∧
      t.pc = m.state.pc + 2#16 ∧ ∀ r, t.getV r = if r = x then rand &&& kk else m.state.getV r

/-- R205, R206, R209: SKP and SKNP test the key named by the low nibble of `V[X]`. Spec decisions D6, D14. -/
def Obligations.KeySkips : Prop :=
  ∀ (x k : Nibble) (s : State), k.toNat = (s.getV x).toNat % 16 →
    (∃ t, exec (.skp x) s = .next t ∧ SameButPc s t ∧
      t.pc = if s.keyDown k = true then s.pc + 4#16 else s.pc + 2#16) ∧
    (∃ t, exec (.sknp x) s = .next t ∧ SameButPc s t ∧
      t.pc = if s.keyDown k = true then s.pc + 2#16 else s.pc + 4#16)

/-- R207: LD Vx, K enters WAITING_FOR_KEY and advances `pc`; no register is written and no key is looked at. Spec decision
D16. -/
def Obligations.LdVxKEntersTheWait : Prop :=
  ∀ (x : Nibble) (s : State),
    ∃ t, exec (.ldVxK x) s = .next t ∧
      t = { s with waitReg := x, runState := .waitingForKey, pc := s.pc + 2#16 }
end

