-- ==== Sys2Proof/Laws/Decode.lean ====
section
/-! SUPPORT. The fields of a word put together from parts (30_encoding.md R71), one lemma per field and format. -/

namespace Sys2Proof

/-! ### Extracting from a concatenation -/

theorem extract_high {a b : Nat} (x : BitVec a) (y : BitVec b) (i len : Nat) :
    (x ++ y).extractLsb' (b + i) len = x.extractLsb' i len := by
  ext k hk
  simp only [BitVec.getElem_extractLsb', BitVec.getLsbD_append]
  rw [if_neg (by omega), show b + i + k - b = i + k by omega]

theorem extract_low {a b : Nat} (x : BitVec a) (y : BitVec b) (i len : Nat) (h : i + len ≤ b) :
    (x ++ y).extractLsb' i len = y.extractLsb' i len := by
  ext k hk
  simp only [BitVec.getElem_extractLsb', BitVec.getLsbD_append]
  rw [if_pos (by omega)]

theorem extract_whole {a : Nat} (x : BitVec a) : x.extractLsb' 0 a = x := by
  ext k hk
  simp

/-! ### OP NNN -/

section AddrFormat
variable (o : Nibble) (n : Addr)

@[simp] theorem fieldOp_addr : fieldOp (o ++ n) = o :=
  (extract_high o n 0 4).trans (extract_whole o)

@[simp] theorem fieldNNN_addr : fieldNNN (o ++ n) = n :=
  (extract_low o n 0 12 (by omega)).trans (extract_whole n)

end AddrFormat

/-! ### OP X NN -/

section ByteFormat
variable (o x : Nibble) (kk : Byte)

@[simp] theorem fieldOp_byte : fieldOp (o ++ x ++ kk) = o :=
  (extract_high (o ++ x) kk 4 4).trans ((extract_high o x 0 4).trans (extract_whole o))

@[simp] theorem fieldX_byte : fieldX (o ++ x ++ kk) = x :=
  (extract_high (o ++ x) kk 0 4).trans ((extract_low o x 0 4 (by omega)).trans (extract_whole x))

@[simp] theorem fieldNN_byte : fieldNN (o ++ x ++ kk) = kk :=
  (extract_low (o ++ x) kk 0 8 (by omega)).trans (extract_whole kk)

end ByteFormat

/-! ### OP X Y N -/

section NibbleFormat
variable (o x y n : Nibble)

@[simp] theorem fieldOp_nibble : fieldOp (o ++ x ++ y ++ n) = o :=
  (extract_high (o ++ x ++ y) n 8 4).trans
    ((extract_high (o ++ x) y 4 4).trans ((extract_high o x 0 4).trans (extract_whole o)))

@[simp] theorem fieldX_nibble : fieldX (o ++ x ++ y ++ n) = x :=
  (extract_high (o ++ x ++ y) n 4 4).trans
    ((extract_high (o ++ x) y 0 4).trans ((extract_low o x 0 4 (by omega)).trans (extract_whole x)))

@[simp] theorem fieldY_nibble : fieldY (o ++ x ++ y ++ n) = y :=
  (extract_high (o ++ x ++ y) n 0 4).trans ((extract_low (o ++ x) y 0 4 (by omega)).trans (extract_whole y))

@[simp] theorem fieldN_nibble : fieldN (o ++ x ++ y ++ n) = n :=
  (extract_low (o ++ x ++ y) n 0 4 (by omega)).trans (extract_whole n)

end NibbleFormat

/-! ### A word is its fields -/

theorem concat_extract {a b : Nat} (w : BitVec (a + b)) : w.extractLsb' b a ++ w.extractLsb' 0 b = w := by
  ext k hk
  simp only [BitVec.getElem_append, BitVec.getElem_extractLsb']
  split
  · simp [BitVec.getLsbD_eq_getElem hk]
  · rw [show b + (k - b) = k by omega, BitVec.getLsbD_eq_getElem hk]

/-- `w = OP ++ NNN` (30_encoding.md R71). -/
theorem word_eq_addr (w : Word) : fieldOp w ++ fieldNNN w = w := concat_extract (a := 4) (b := 12) w

/-- `NNN = X ++ NN` (30_encoding.md R71). -/
theorem fieldNNN_eq (w : Word) : fieldX w ++ fieldNN w = fieldNNN w := by
  ext k hk
  simp only [BitVec.getElem_append, fieldX, fieldNN, fieldNNN, BitVec.getElem_extractLsb']
  split <;> (congr 1 <;> omega)

/-- `NN = Y ++ N` (30_encoding.md R71). -/
theorem fieldNN_eq (w : Word) : fieldY w ++ fieldN w = fieldNN w := by
  ext k hk
  simp only [BitVec.getElem_append, fieldY, fieldN, fieldNN, BitVec.getElem_extractLsb']
  split <;> (congr 1 <;> omega)

/-- `w = OP ++ X ++ NN` (30_encoding.md R71). -/
theorem word_eq_byte (w : Word) : fieldOp w ++ fieldX w ++ fieldNN w = w := by
  have h : fieldOp w ++ fieldX w = w.extractLsb' 8 8 := by
    ext k hk
    simp only [BitVec.getElem_append, fieldOp, fieldX, BitVec.getElem_extractLsb']
    split <;> (congr 1 <;> omega)
  rw [h]
  exact concat_extract (a := 8) (b := 8) w

/-- `w = OP ++ X ++ Y ++ N` (30_encoding.md R71). -/
theorem word_eq_nibble (w : Word) : fieldOp w ++ fieldX w ++ fieldY w ++ fieldN w = w := by
  have h : fieldOp w ++ fieldX w ++ fieldY w = w.extractLsb' 4 12 := by
    ext k hk
    simp only [BitVec.getElem_append, fieldOp, fieldX, fieldY, BitVec.getElem_extractLsb']
    split
    · congr 1
    · split <;> (congr 1; try omega)
  rw [h]
  exact concat_extract (a := 12) (b := 4) w

/-! ### Bytes and words -/

/-- The two bytes of a word, put together again, are the word (20_memory.md R54). -/
theorem wordOfBytes_bytesOfWord (w : Word) : wordOfBytes (w.extractLsb' 8 8) (w.extractLsb' 0 8) = w :=
  concat_extract (a := 8) (b := 8) w

/-- Decoding the bytes of a word decodes the word (30_encoding.md R70). -/
theorem decode_bytesOfWord (w : Word) (rest : List Byte) :
    decode (bytesOfWord w ++ rest) =
      match decodeWord w with
      | .op i => .op i rest
      | .unknownOpcode => .unknownOpcode w := by
  simp only [bytesOfWord, List.cons_append, List.nil_append, decode, wordOfBytes_bytesOfWord]
  all_goals (cases decodeWord w <;> rfl)

end Sys2Proof
end

