-- ==== Sys2Proof/Laws/State.lean ====
section
/-! SUPPORT. One lemma per field per update of the state, so that no later proof unfolds a record update; and what each update
leaves of the registers and of the bytes of memory. -/

namespace Sys2Proof.Machine

/-! ### `setV` -/

@[simp] theorem State.setV_mem (s : State) (x : Nibble) (b : Byte) : (s.setV x b).mem = s.mem := rfl
@[simp] theorem State.setV_v (s : State) (x : Nibble) (b : Byte) : (s.setV x b).v = s.v.set x.toNat b x.isLt := rfl
@[simp] theorem State.setV_i (s : State) (x : Nibble) (b : Byte) : (s.setV x b).i = s.i := rfl
@[simp] theorem State.setV_pc (s : State) (x : Nibble) (b : Byte) : (s.setV x b).pc = s.pc := rfl
@[simp] theorem State.setV_stack (s : State) (x : Nibble) (b : Byte) : (s.setV x b).stack = s.stack := rfl
@[simp] theorem State.setV_sp (s : State) (x : Nibble) (b : Byte) : (s.setV x b).sp = s.sp := rfl
@[simp] theorem State.setV_dt (s : State) (x : Nibble) (b : Byte) : (s.setV x b).dt = s.dt := rfl
@[simp] theorem State.setV_st (s : State) (x : Nibble) (b : Byte) : (s.setV x b).st = s.st := rfl
@[simp] theorem State.setV_fb (s : State) (x : Nibble) (b : Byte) : (s.setV x b).fb = s.fb := rfl
@[simp] theorem State.setV_keys (s : State) (x : Nibble) (b : Byte) : (s.setV x b).keys = s.keys := rfl
@[simp] theorem State.setV_runState (s : State) (x : Nibble) (b : Byte) : (s.setV x b).runState = s.runState := rfl
@[simp] theorem State.setV_waitReg (s : State) (x : Nibble) (b : Byte) : (s.setV x b).waitReg = s.waitReg := rfl
@[simp] theorem State.setV_fault (s : State) (x : Nibble) (b : Byte) : (s.setV x b).fault = s.fault := rfl
@[simp] theorem State.setV_params (s : State) (x : Nibble) (b : Byte) : (s.setV x b).params = s.params := rfl
@[simp] theorem State.setV_randInputs (s : State) (x : Nibble) (b : Byte) : (s.setV x b).randInputs = s.randInputs := rfl
@[simp] theorem State.setV_randDraws (s : State) (x : Nibble) (b : Byte) : (s.setV x b).randDraws = s.randDraws := rfl
@[simp] theorem State.setV_readByte (s : State) (x : Nibble) (b : Byte) (m : Nat) : (s.setV x b).readByte m = s.readByte m := rfl

/-! ### `setFlag` -/

@[simp] theorem State.setFlag_mem (s : State) (c : Bool) : (s.setFlag c).mem = s.mem := rfl
@[simp] theorem State.setFlag_i (s : State) (c : Bool) : (s.setFlag c).i = s.i := rfl
@[simp] theorem State.setFlag_pc (s : State) (c : Bool) : (s.setFlag c).pc = s.pc := rfl
@[simp] theorem State.setFlag_stack (s : State) (c : Bool) : (s.setFlag c).stack = s.stack := rfl
@[simp] theorem State.setFlag_sp (s : State) (c : Bool) : (s.setFlag c).sp = s.sp := rfl
@[simp] theorem State.setFlag_dt (s : State) (c : Bool) : (s.setFlag c).dt = s.dt := rfl
@[simp] theorem State.setFlag_st (s : State) (c : Bool) : (s.setFlag c).st = s.st := rfl
@[simp] theorem State.setFlag_fb (s : State) (c : Bool) : (s.setFlag c).fb = s.fb := rfl
@[simp] theorem State.setFlag_keys (s : State) (c : Bool) : (s.setFlag c).keys = s.keys := rfl
@[simp] theorem State.setFlag_runState (s : State) (c : Bool) : (s.setFlag c).runState = s.runState := rfl
@[simp] theorem State.setFlag_waitReg (s : State) (c : Bool) : (s.setFlag c).waitReg = s.waitReg := rfl
@[simp] theorem State.setFlag_fault (s : State) (c : Bool) : (s.setFlag c).fault = s.fault := rfl
@[simp] theorem State.setFlag_params (s : State) (c : Bool) : (s.setFlag c).params = s.params := rfl
@[simp] theorem State.setFlag_randInputs (s : State) (c : Bool) : (s.setFlag c).randInputs = s.randInputs := rfl
@[simp] theorem State.setFlag_randDraws (s : State) (c : Bool) : (s.setFlag c).randDraws = s.randDraws := rfl
@[simp] theorem State.setFlag_readByte (s : State) (c : Bool) (m : Nat) : (s.setFlag c).readByte m = s.readByte m := rfl

/-! ### `setResultFlag` -/

@[simp] theorem State.setResultFlag_mem (s : State) (x : Nibble) (b : Byte) (c : Bool) : (s.setResultFlag x b c).mem = s.mem := rfl
@[simp] theorem State.setResultFlag_i (s : State) (x : Nibble) (b : Byte) (c : Bool) : (s.setResultFlag x b c).i = s.i := rfl
@[simp] theorem State.setResultFlag_pc (s : State) (x : Nibble) (b : Byte) (c : Bool) : (s.setResultFlag x b c).pc = s.pc := rfl
@[simp] theorem State.setResultFlag_stack (s : State) (x : Nibble) (b : Byte) (c : Bool) : (s.setResultFlag x b c).stack = s.stack := rfl
@[simp] theorem State.setResultFlag_sp (s : State) (x : Nibble) (b : Byte) (c : Bool) : (s.setResultFlag x b c).sp = s.sp := rfl
@[simp] theorem State.setResultFlag_dt (s : State) (x : Nibble) (b : Byte) (c : Bool) : (s.setResultFlag x b c).dt = s.dt := rfl
@[simp] theorem State.setResultFlag_st (s : State) (x : Nibble) (b : Byte) (c : Bool) : (s.setResultFlag x b c).st = s.st := rfl
@[simp] theorem State.setResultFlag_fb (s : State) (x : Nibble) (b : Byte) (c : Bool) : (s.setResultFlag x b c).fb = s.fb := rfl
@[simp] theorem State.setResultFlag_keys (s : State) (x : Nibble) (b : Byte) (c : Bool) : (s.setResultFlag x b c).keys = s.keys := rfl
@[simp] theorem State.setResultFlag_runState (s : State) (x : Nibble) (b : Byte) (c : Bool) : (s.setResultFlag x b c).runState = s.runState := rfl
@[simp] theorem State.setResultFlag_waitReg (s : State) (x : Nibble) (b : Byte) (c : Bool) : (s.setResultFlag x b c).waitReg = s.waitReg := rfl
@[simp] theorem State.setResultFlag_fault (s : State) (x : Nibble) (b : Byte) (c : Bool) : (s.setResultFlag x b c).fault = s.fault := rfl
@[simp] theorem State.setResultFlag_params (s : State) (x : Nibble) (b : Byte) (c : Bool) : (s.setResultFlag x b c).params = s.params := rfl
@[simp] theorem State.setResultFlag_randInputs (s : State) (x : Nibble) (b : Byte) (c : Bool) : (s.setResultFlag x b c).randInputs = s.randInputs := rfl
@[simp] theorem State.setResultFlag_randDraws (s : State) (x : Nibble) (b : Byte) (c : Bool) : (s.setResultFlag x b c).randDraws = s.randDraws := rfl
@[simp] theorem State.setResultFlag_readByte (s : State) (x : Nibble) (b : Byte) (c : Bool) (m : Nat) : (s.setResultFlag x b c).readByte m = s.readByte m := rfl

/-! ### `setI` -/

@[simp] theorem State.setI_mem (s : State) (a : Word) : (s.setI a).mem = s.mem := rfl
@[simp] theorem State.setI_v (s : State) (a : Word) : (s.setI a).v = s.v := rfl
@[simp] theorem State.setI_i (s : State) (a : Word) : (s.setI a).i = a := rfl
@[simp] theorem State.setI_pc (s : State) (a : Word) : (s.setI a).pc = s.pc := rfl
@[simp] theorem State.setI_stack (s : State) (a : Word) : (s.setI a).stack = s.stack := rfl
@[simp] theorem State.setI_sp (s : State) (a : Word) : (s.setI a).sp = s.sp := rfl
@[simp] theorem State.setI_dt (s : State) (a : Word) : (s.setI a).dt = s.dt := rfl
@[simp] theorem State.setI_st (s : State) (a : Word) : (s.setI a).st = s.st := rfl
@[simp] theorem State.setI_fb (s : State) (a : Word) : (s.setI a).fb = s.fb := rfl
@[simp] theorem State.setI_keys (s : State) (a : Word) : (s.setI a).keys = s.keys := rfl
@[simp] theorem State.setI_runState (s : State) (a : Word) : (s.setI a).runState = s.runState := rfl
@[simp] theorem State.setI_waitReg (s : State) (a : Word) : (s.setI a).waitReg = s.waitReg := rfl
@[simp] theorem State.setI_fault (s : State) (a : Word) : (s.setI a).fault = s.fault := rfl
@[simp] theorem State.setI_params (s : State) (a : Word) : (s.setI a).params = s.params := rfl
@[simp] theorem State.setI_randInputs (s : State) (a : Word) : (s.setI a).randInputs = s.randInputs := rfl
@[simp] theorem State.setI_randDraws (s : State) (a : Word) : (s.setI a).randDraws = s.randDraws := rfl
@[simp] theorem State.setI_getV (s : State) (a : Word) (r : Nibble) : (s.setI a).getV r = s.getV r := rfl
@[simp] theorem State.setI_readByte (s : State) (a : Word) (m : Nat) : (s.setI a).readByte m = s.readByte m := rfl

/-! ### `setDt` -/

@[simp] theorem State.setDt_mem (s : State) (b : Byte) : (s.setDt b).mem = s.mem := rfl
@[simp] theorem State.setDt_v (s : State) (b : Byte) : (s.setDt b).v = s.v := rfl
@[simp] theorem State.setDt_i (s : State) (b : Byte) : (s.setDt b).i = s.i := rfl
@[simp] theorem State.setDt_pc (s : State) (b : Byte) : (s.setDt b).pc = s.pc := rfl
@[simp] theorem State.setDt_stack (s : State) (b : Byte) : (s.setDt b).stack = s.stack := rfl
@[simp] theorem State.setDt_sp (s : State) (b : Byte) : (s.setDt b).sp = s.sp := rfl
@[simp] theorem State.setDt_dt (s : State) (b : Byte) : (s.setDt b).dt = b := rfl
@[simp] theorem State.setDt_st (s : State) (b : Byte) : (s.setDt b).st = s.st := rfl
@[simp] theorem State.setDt_fb (s : State) (b : Byte) : (s.setDt b).fb = s.fb := rfl
@[simp] theorem State.setDt_keys (s : State) (b : Byte) : (s.setDt b).keys = s.keys := rfl
@[simp] theorem State.setDt_runState (s : State) (b : Byte) : (s.setDt b).runState = s.runState := rfl
@[simp] theorem State.setDt_waitReg (s : State) (b : Byte) : (s.setDt b).waitReg = s.waitReg := rfl
@[simp] theorem State.setDt_fault (s : State) (b : Byte) : (s.setDt b).fault = s.fault := rfl
@[simp] theorem State.setDt_params (s : State) (b : Byte) : (s.setDt b).params = s.params := rfl
@[simp] theorem State.setDt_randInputs (s : State) (b : Byte) : (s.setDt b).randInputs = s.randInputs := rfl
@[simp] theorem State.setDt_randDraws (s : State) (b : Byte) : (s.setDt b).randDraws = s.randDraws := rfl
@[simp] theorem State.setDt_getV (s : State) (b : Byte) (r : Nibble) : (s.setDt b).getV r = s.getV r := rfl
@[simp] theorem State.setDt_readByte (s : State) (b : Byte) (m : Nat) : (s.setDt b).readByte m = s.readByte m := rfl

/-! ### `setSt` -/

@[simp] theorem State.setSt_mem (s : State) (b : Byte) : (s.setSt b).mem = s.mem := rfl
@[simp] theorem State.setSt_v (s : State) (b : Byte) : (s.setSt b).v = s.v := rfl
@[simp] theorem State.setSt_i (s : State) (b : Byte) : (s.setSt b).i = s.i := rfl
@[simp] theorem State.setSt_pc (s : State) (b : Byte) : (s.setSt b).pc = s.pc := rfl
@[simp] theorem State.setSt_stack (s : State) (b : Byte) : (s.setSt b).stack = s.stack := rfl
@[simp] theorem State.setSt_sp (s : State) (b : Byte) : (s.setSt b).sp = s.sp := rfl
@[simp] theorem State.setSt_dt (s : State) (b : Byte) : (s.setSt b).dt = s.dt := rfl
@[simp] theorem State.setSt_st (s : State) (b : Byte) : (s.setSt b).st = b := rfl
@[simp] theorem State.setSt_fb (s : State) (b : Byte) : (s.setSt b).fb = s.fb := rfl
@[simp] theorem State.setSt_keys (s : State) (b : Byte) : (s.setSt b).keys = s.keys := rfl
@[simp] theorem State.setSt_runState (s : State) (b : Byte) : (s.setSt b).runState = s.runState := rfl
@[simp] theorem State.setSt_waitReg (s : State) (b : Byte) : (s.setSt b).waitReg = s.waitReg := rfl
@[simp] theorem State.setSt_fault (s : State) (b : Byte) : (s.setSt b).fault = s.fault := rfl
@[simp] theorem State.setSt_params (s : State) (b : Byte) : (s.setSt b).params = s.params := rfl
@[simp] theorem State.setSt_randInputs (s : State) (b : Byte) : (s.setSt b).randInputs = s.randInputs := rfl
@[simp] theorem State.setSt_randDraws (s : State) (b : Byte) : (s.setSt b).randDraws = s.randDraws := rfl
@[simp] theorem State.setSt_getV (s : State) (b : Byte) (r : Nibble) : (s.setSt b).getV r = s.getV r := rfl
@[simp] theorem State.setSt_readByte (s : State) (b : Byte) (m : Nat) : (s.setSt b).readByte m = s.readByte m := rfl

/-! ### `setFb` -/

@[simp] theorem State.setFb_mem (s : State) (f : Framebuffer) : (s.setFb f).mem = s.mem := rfl
@[simp] theorem State.setFb_v (s : State) (f : Framebuffer) : (s.setFb f).v = s.v := rfl
@[simp] theorem State.setFb_i (s : State) (f : Framebuffer) : (s.setFb f).i = s.i := rfl
@[simp] theorem State.setFb_pc (s : State) (f : Framebuffer) : (s.setFb f).pc = s.pc := rfl
@[simp] theorem State.setFb_stack (s : State) (f : Framebuffer) : (s.setFb f).stack = s.stack := rfl
@[simp] theorem State.setFb_sp (s : State) (f : Framebuffer) : (s.setFb f).sp = s.sp := rfl
@[simp] theorem State.setFb_dt (s : State) (f : Framebuffer) : (s.setFb f).dt = s.dt := rfl
@[simp] theorem State.setFb_st (s : State) (f : Framebuffer) : (s.setFb f).st = s.st := rfl
@[simp] theorem State.setFb_fb (s : State) (f : Framebuffer) : (s.setFb f).fb = f := rfl
@[simp] theorem State.setFb_keys (s : State) (f : Framebuffer) : (s.setFb f).keys = s.keys := rfl
@[simp] theorem State.setFb_runState (s : State) (f : Framebuffer) : (s.setFb f).runState = s.runState := rfl
@[simp] theorem State.setFb_waitReg (s : State) (f : Framebuffer) : (s.setFb f).waitReg = s.waitReg := rfl
@[simp] theorem State.setFb_fault (s : State) (f : Framebuffer) : (s.setFb f).fault = s.fault := rfl
@[simp] theorem State.setFb_params (s : State) (f : Framebuffer) : (s.setFb f).params = s.params := rfl
@[simp] theorem State.setFb_randInputs (s : State) (f : Framebuffer) : (s.setFb f).randInputs = s.randInputs := rfl
@[simp] theorem State.setFb_randDraws (s : State) (f : Framebuffer) : (s.setFb f).randDraws = s.randDraws := rfl
@[simp] theorem State.setFb_getV (s : State) (f : Framebuffer) (r : Nibble) : (s.setFb f).getV r = s.getV r := rfl
@[simp] theorem State.setFb_readByte (s : State) (f : Framebuffer) (m : Nat) : (s.setFb f).readByte m = s.readByte m := rfl

/-! ### `jump` -/

@[simp] theorem State.jump_mem (s : State) (a : Word) : (s.jump a).mem = s.mem := rfl
@[simp] theorem State.jump_v (s : State) (a : Word) : (s.jump a).v = s.v := rfl
@[simp] theorem State.jump_i (s : State) (a : Word) : (s.jump a).i = s.i := rfl
@[simp] theorem State.jump_pc (s : State) (a : Word) : (s.jump a).pc = a := rfl
@[simp] theorem State.jump_stack (s : State) (a : Word) : (s.jump a).stack = s.stack := rfl
@[simp] theorem State.jump_sp (s : State) (a : Word) : (s.jump a).sp = s.sp := rfl
@[simp] theorem State.jump_dt (s : State) (a : Word) : (s.jump a).dt = s.dt := rfl
@[simp] theorem State.jump_st (s : State) (a : Word) : (s.jump a).st = s.st := rfl
@[simp] theorem State.jump_fb (s : State) (a : Word) : (s.jump a).fb = s.fb := rfl
@[simp] theorem State.jump_keys (s : State) (a : Word) : (s.jump a).keys = s.keys := rfl
@[simp] theorem State.jump_runState (s : State) (a : Word) : (s.jump a).runState = s.runState := rfl
@[simp] theorem State.jump_waitReg (s : State) (a : Word) : (s.jump a).waitReg = s.waitReg := rfl
@[simp] theorem State.jump_fault (s : State) (a : Word) : (s.jump a).fault = s.fault := rfl
@[simp] theorem State.jump_params (s : State) (a : Word) : (s.jump a).params = s.params := rfl
@[simp] theorem State.jump_randInputs (s : State) (a : Word) : (s.jump a).randInputs = s.randInputs := rfl
@[simp] theorem State.jump_randDraws (s : State) (a : Word) : (s.jump a).randDraws = s.randDraws := rfl
@[simp] theorem State.jump_getV (s : State) (a : Word) (r : Nibble) : (s.jump a).getV r = s.getV r := rfl
@[simp] theorem State.jump_readByte (s : State) (a : Word) (m : Nat) : (s.jump a).readByte m = s.readByte m := rfl

/-! ### `advance` -/

@[simp] theorem State.advance_mem (s : State) : (s.advance).mem = s.mem := rfl
@[simp] theorem State.advance_v (s : State) : (s.advance).v = s.v := rfl
@[simp] theorem State.advance_i (s : State) : (s.advance).i = s.i := rfl
@[simp] theorem State.advance_pc (s : State) : (s.advance).pc = s.pc + 2#16 := rfl
@[simp] theorem State.advance_stack (s : State) : (s.advance).stack = s.stack := rfl
@[simp] theorem State.advance_sp (s : State) : (s.advance).sp = s.sp := rfl
@[simp] theorem State.advance_dt (s : State) : (s.advance).dt = s.dt := rfl
@[simp] theorem State.advance_st (s : State) : (s.advance).st = s.st := rfl
@[simp] theorem State.advance_fb (s : State) : (s.advance).fb = s.fb := rfl
@[simp] theorem State.advance_keys (s : State) : (s.advance).keys = s.keys := rfl
@[simp] theorem State.advance_runState (s : State) : (s.advance).runState = s.runState := rfl
@[simp] theorem State.advance_waitReg (s : State) : (s.advance).waitReg = s.waitReg := rfl
@[simp] theorem State.advance_fault (s : State) : (s.advance).fault = s.fault := rfl
@[simp] theorem State.advance_params (s : State) : (s.advance).params = s.params := rfl
@[simp] theorem State.advance_randInputs (s : State) : (s.advance).randInputs = s.randInputs := rfl
@[simp] theorem State.advance_randDraws (s : State) : (s.advance).randDraws = s.randDraws := rfl
@[simp] theorem State.advance_getV (s : State) (r : Nibble) : (s.advance).getV r = s.getV r := rfl
@[simp] theorem State.advance_readByte (s : State) (m : Nat) : (s.advance).readByte m = s.readByte m := rfl

/-! ### `raise` -/

@[simp] theorem State.raise_mem (s : State) (k : FaultKind) (w : Option Word) : (s.raise k w).mem = s.mem := rfl
@[simp] theorem State.raise_v (s : State) (k : FaultKind) (w : Option Word) : (s.raise k w).v = s.v := rfl
@[simp] theorem State.raise_i (s : State) (k : FaultKind) (w : Option Word) : (s.raise k w).i = s.i := rfl
@[simp] theorem State.raise_pc (s : State) (k : FaultKind) (w : Option Word) : (s.raise k w).pc = s.pc := rfl
@[simp] theorem State.raise_stack (s : State) (k : FaultKind) (w : Option Word) : (s.raise k w).stack = s.stack := rfl
@[simp] theorem State.raise_sp (s : State) (k : FaultKind) (w : Option Word) : (s.raise k w).sp = s.sp := rfl
@[simp] theorem State.raise_dt (s : State) (k : FaultKind) (w : Option Word) : (s.raise k w).dt = s.dt := rfl
@[simp] theorem State.raise_st (s : State) (k : FaultKind) (w : Option Word) : (s.raise k w).st = s.st := rfl
@[simp] theorem State.raise_fb (s : State) (k : FaultKind) (w : Option Word) : (s.raise k w).fb = s.fb := rfl
@[simp] theorem State.raise_keys (s : State) (k : FaultKind) (w : Option Word) : (s.raise k w).keys = s.keys := rfl
@[simp] theorem State.raise_runState (s : State) (k : FaultKind) (w : Option Word) : (s.raise k w).runState = .halted := rfl
@[simp] theorem State.raise_waitReg (s : State) (k : FaultKind) (w : Option Word) : (s.raise k w).waitReg = s.waitReg := rfl
@[simp] theorem State.raise_fault (s : State) (k : FaultKind) (w : Option Word) : (s.raise k w).fault = some { kind := k, pc := some s.pc, word := w } := rfl
@[simp] theorem State.raise_params (s : State) (k : FaultKind) (w : Option Word) : (s.raise k w).params = s.params := rfl
@[simp] theorem State.raise_randInputs (s : State) (k : FaultKind) (w : Option Word) : (s.raise k w).randInputs = s.randInputs := rfl
@[simp] theorem State.raise_randDraws (s : State) (k : FaultKind) (w : Option Word) : (s.raise k w).randDraws = s.randDraws := rfl
@[simp] theorem State.raise_getV (s : State) (k : FaultKind) (w : Option Word) (r : Nibble) : (s.raise k w).getV r = s.getV r := rfl
@[simp] theorem State.raise_readByte (s : State) (k : FaultKind) (w : Option Word) (m : Nat) : (s.raise k w).readByte m = s.readByte m := rfl

/-! ### `writeByte` -/

@[simp] theorem State.writeByte_v (s : State) (a : Nat) (b : Byte) : (s.writeByte a b).v = s.v := rfl
@[simp] theorem State.writeByte_i (s : State) (a : Nat) (b : Byte) : (s.writeByte a b).i = s.i := rfl
@[simp] theorem State.writeByte_pc (s : State) (a : Nat) (b : Byte) : (s.writeByte a b).pc = s.pc := rfl
@[simp] theorem State.writeByte_stack (s : State) (a : Nat) (b : Byte) : (s.writeByte a b).stack = s.stack := rfl
@[simp] theorem State.writeByte_sp (s : State) (a : Nat) (b : Byte) : (s.writeByte a b).sp = s.sp := rfl
@[simp] theorem State.writeByte_dt (s : State) (a : Nat) (b : Byte) : (s.writeByte a b).dt = s.dt := rfl
@[simp] theorem State.writeByte_st (s : State) (a : Nat) (b : Byte) : (s.writeByte a b).st = s.st := rfl
@[simp] theorem State.writeByte_fb (s : State) (a : Nat) (b : Byte) : (s.writeByte a b).fb = s.fb := rfl
@[simp] theorem State.writeByte_keys (s : State) (a : Nat) (b : Byte) : (s.writeByte a b).keys = s.keys := rfl
@[simp] theorem State.writeByte_runState (s : State) (a : Nat) (b : Byte) : (s.writeByte a b).runState = s.runState := rfl
@[simp] theorem State.writeByte_waitReg (s : State) (a : Nat) (b : Byte) : (s.writeByte a b).waitReg = s.waitReg := rfl
@[simp] theorem State.writeByte_fault (s : State) (a : Nat) (b : Byte) : (s.writeByte a b).fault = s.fault := rfl
@[simp] theorem State.writeByte_params (s : State) (a : Nat) (b : Byte) : (s.writeByte a b).params = s.params := rfl
@[simp] theorem State.writeByte_randInputs (s : State) (a : Nat) (b : Byte) : (s.writeByte a b).randInputs = s.randInputs := rfl
@[simp] theorem State.writeByte_randDraws (s : State) (a : Nat) (b : Byte) : (s.writeByte a b).randDraws = s.randDraws := rfl
@[simp] theorem State.writeByte_getV (s : State) (a : Nat) (b : Byte) (r : Nibble) : (s.writeByte a b).getV r = s.getV r := rfl

/-! ### `beginWait` -/

@[simp] theorem State.beginWait_mem (s : State) (x : Nibble) : (s.beginWait x).mem = s.mem := rfl
@[simp] theorem State.beginWait_v (s : State) (x : Nibble) : (s.beginWait x).v = s.v := rfl
@[simp] theorem State.beginWait_i (s : State) (x : Nibble) : (s.beginWait x).i = s.i := rfl
@[simp] theorem State.beginWait_pc (s : State) (x : Nibble) : (s.beginWait x).pc = s.pc := rfl
@[simp] theorem State.beginWait_stack (s : State) (x : Nibble) : (s.beginWait x).stack = s.stack := rfl
@[simp] theorem State.beginWait_sp (s : State) (x : Nibble) : (s.beginWait x).sp = s.sp := rfl
@[simp] theorem State.beginWait_dt (s : State) (x : Nibble) : (s.beginWait x).dt = s.dt := rfl
@[simp] theorem State.beginWait_st (s : State) (x : Nibble) : (s.beginWait x).st = s.st := rfl
@[simp] theorem State.beginWait_fb (s : State) (x : Nibble) : (s.beginWait x).fb = s.fb := rfl
@[simp] theorem State.beginWait_keys (s : State) (x : Nibble) : (s.beginWait x).keys = s.keys := rfl
@[simp] theorem State.beginWait_runState (s : State) (x : Nibble) : (s.beginWait x).runState = .waitingForKey := rfl
@[simp] theorem State.beginWait_waitReg (s : State) (x : Nibble) : (s.beginWait x).waitReg = x := rfl
@[simp] theorem State.beginWait_fault (s : State) (x : Nibble) : (s.beginWait x).fault = s.fault := rfl
@[simp] theorem State.beginWait_params (s : State) (x : Nibble) : (s.beginWait x).params = s.params := rfl
@[simp] theorem State.beginWait_randInputs (s : State) (x : Nibble) : (s.beginWait x).randInputs = s.randInputs := rfl
@[simp] theorem State.beginWait_randDraws (s : State) (x : Nibble) : (s.beginWait x).randDraws = s.randDraws := rfl
@[simp] theorem State.beginWait_getV (s : State) (x : Nibble) (r : Nibble) : (s.beginWait x).getV r = s.getV r := rfl
@[simp] theorem State.beginWait_readByte (s : State) (x : Nibble) (m : Nat) : (s.beginWait x).readByte m = s.readByte m := rfl

/-! ### `tick` -/

@[simp] theorem State.tick_mem (s : State) : (s.tick).mem = s.mem := rfl
@[simp] theorem State.tick_v (s : State) : (s.tick).v = s.v := rfl
@[simp] theorem State.tick_i (s : State) : (s.tick).i = s.i := rfl
@[simp] theorem State.tick_pc (s : State) : (s.tick).pc = s.pc := rfl
@[simp] theorem State.tick_stack (s : State) : (s.tick).stack = s.stack := rfl
@[simp] theorem State.tick_sp (s : State) : (s.tick).sp = s.sp := rfl
@[simp] theorem State.tick_dt (s : State) : (s.tick).dt = countDown s.dt := rfl
@[simp] theorem State.tick_st (s : State) : (s.tick).st = countDown s.st := rfl
@[simp] theorem State.tick_fb (s : State) : (s.tick).fb = s.fb := rfl
@[simp] theorem State.tick_keys (s : State) : (s.tick).keys = s.keys := rfl
@[simp] theorem State.tick_runState (s : State) : (s.tick).runState = s.runState := rfl
@[simp] theorem State.tick_waitReg (s : State) : (s.tick).waitReg = s.waitReg := rfl
@[simp] theorem State.tick_fault (s : State) : (s.tick).fault = s.fault := rfl
@[simp] theorem State.tick_params (s : State) : (s.tick).params = s.params := rfl
@[simp] theorem State.tick_randInputs (s : State) : (s.tick).randInputs = s.randInputs := rfl
@[simp] theorem State.tick_randDraws (s : State) : (s.tick).randDraws = s.randDraws := rfl
@[simp] theorem State.tick_getV (s : State) (r : Nibble) : (s.tick).getV r = s.getV r := rfl
@[simp] theorem State.tick_readByte (s : State) (m : Nat) : (s.tick).readByte m = s.readByte m := rfl

/-! ### `setKey` -/

@[simp] theorem State.setKey_mem (s : State) (k : Nibble) (d : Bool) : (s.setKey k d).mem = s.mem := rfl
@[simp] theorem State.setKey_v (s : State) (k : Nibble) (d : Bool) : (s.setKey k d).v = s.v := rfl
@[simp] theorem State.setKey_i (s : State) (k : Nibble) (d : Bool) : (s.setKey k d).i = s.i := rfl
@[simp] theorem State.setKey_pc (s : State) (k : Nibble) (d : Bool) : (s.setKey k d).pc = s.pc := rfl
@[simp] theorem State.setKey_stack (s : State) (k : Nibble) (d : Bool) : (s.setKey k d).stack = s.stack := rfl
@[simp] theorem State.setKey_sp (s : State) (k : Nibble) (d : Bool) : (s.setKey k d).sp = s.sp := rfl
@[simp] theorem State.setKey_dt (s : State) (k : Nibble) (d : Bool) : (s.setKey k d).dt = s.dt := rfl
@[simp] theorem State.setKey_st (s : State) (k : Nibble) (d : Bool) : (s.setKey k d).st = s.st := rfl
@[simp] theorem State.setKey_fb (s : State) (k : Nibble) (d : Bool) : (s.setKey k d).fb = s.fb := rfl
@[simp] theorem State.setKey_keys (s : State) (k : Nibble) (d : Bool) : (s.setKey k d).keys = s.keys.set k.toNat d k.isLt := rfl
@[simp] theorem State.setKey_runState (s : State) (k : Nibble) (d : Bool) : (s.setKey k d).runState = s.runState := rfl
@[simp] theorem State.setKey_waitReg (s : State) (k : Nibble) (d : Bool) : (s.setKey k d).waitReg = s.waitReg := rfl
@[simp] theorem State.setKey_fault (s : State) (k : Nibble) (d : Bool) : (s.setKey k d).fault = s.fault := rfl
@[simp] theorem State.setKey_params (s : State) (k : Nibble) (d : Bool) : (s.setKey k d).params = s.params := rfl
@[simp] theorem State.setKey_randInputs (s : State) (k : Nibble) (d : Bool) : (s.setKey k d).randInputs = s.randInputs := rfl
@[simp] theorem State.setKey_randDraws (s : State) (k : Nibble) (d : Bool) : (s.setKey k d).randDraws = s.randDraws := rfl
@[simp] theorem State.setKey_getV (s : State) (k : Nibble) (d : Bool) (r : Nibble) : (s.setKey k d).getV r = s.getV r := rfl
@[simp] theorem State.setKey_readByte (s : State) (k : Nibble) (d : Bool) (m : Nat) : (s.setKey k d).readByte m = s.readByte m := rfl

/-! ### `rejectImage` -/

@[simp] theorem State.rejectImage_mem (s : State) : (s.rejectImage).mem = s.mem := rfl
@[simp] theorem State.rejectImage_v (s : State) : (s.rejectImage).v = s.v := rfl
@[simp] theorem State.rejectImage_i (s : State) : (s.rejectImage).i = s.i := rfl
@[simp] theorem State.rejectImage_pc (s : State) : (s.rejectImage).pc = s.pc := rfl
@[simp] theorem State.rejectImage_stack (s : State) : (s.rejectImage).stack = s.stack := rfl
@[simp] theorem State.rejectImage_sp (s : State) : (s.rejectImage).sp = s.sp := rfl
@[simp] theorem State.rejectImage_dt (s : State) : (s.rejectImage).dt = s.dt := rfl
@[simp] theorem State.rejectImage_st (s : State) : (s.rejectImage).st = s.st := rfl
@[simp] theorem State.rejectImage_fb (s : State) : (s.rejectImage).fb = s.fb := rfl
@[simp] theorem State.rejectImage_keys (s : State) : (s.rejectImage).keys = s.keys := rfl
@[simp] theorem State.rejectImage_runState (s : State) : (s.rejectImage).runState = .halted := rfl
@[simp] theorem State.rejectImage_waitReg (s : State) : (s.rejectImage).waitReg = s.waitReg := rfl
@[simp] theorem State.rejectImage_fault (s : State) : (s.rejectImage).fault = some { kind := .romTooLarge, pc := none, word := none } := rfl
@[simp] theorem State.rejectImage_params (s : State) : (s.rejectImage).params = s.params := rfl
@[simp] theorem State.rejectImage_randInputs (s : State) : (s.rejectImage).randInputs = s.randInputs := rfl
@[simp] theorem State.rejectImage_randDraws (s : State) : (s.rejectImage).randDraws = s.randDraws := rfl
@[simp] theorem State.rejectImage_getV (s : State) (r : Nibble) : (s.rejectImage).getV r = s.getV r := rfl
@[simp] theorem State.rejectImage_readByte (s : State) (m : Nat) : (s.rejectImage).readByte m = s.readByte m := rfl

/-! ### Registers -/

@[simp] theorem State.setV_getV (s : State) (x : Nibble) (b : Byte) (r : Nibble) :
    (s.setV x b).getV r = if r = x then b else s.getV r := by
  simp [State.getV, State.setV, Vector.getElem_set, BitVec.toNat_inj, eq_comm]

@[simp] theorem State.setFlag_getV (s : State) (c : Bool) (r : Nibble) :
    (s.setFlag c).getV r = if r = 0xF#4 then (if c then 0x01#8 else 0x00#8) else s.getV r := by
  simp [State.setFlag]

@[simp] theorem State.setResultFlag_getV (s : State) (x : Nibble) (b : Byte) (c : Bool) (r : Nibble) :
    (s.setResultFlag x b c).getV r =
      if r = 0xF#4 then (if c then 0x01#8 else 0x00#8) else if r = x then b else s.getV r := by
  simp [State.setResultFlag]

/-- Two states with the same registers read alike are states with the same register file. -/
theorem State.v_ext {s t : State} (h : ∀ r, t.getV r = s.getV r) : t.v = s.v := by
  apply Vector.ext
  intro k hk
  have := h (BitVec.ofNat 4 k)
  simpa [State.getV, Nat.mod_eq_of_lt hk] using this

/-! ### The skip -/

@[simp] theorem State.skipIf_pc (s : State) (c : Bool) :
    (s.skipIf c).pc = if c then s.pc + 4#16 else s.pc + 2#16 := by
  cases c <;> rfl

/-- A skip writes `pc` alone. -/
theorem State.skipIf_eq (s : State) (c : Bool) :
    s.skipIf c = { s with pc := if c then s.pc + 4#16 else s.pc + 2#16 } := by
  cases c <;> rfl

/-! ### The random byte -/

@[simp] theorem State.consumeRand_getV (s : State) (r : Nibble) : s.consumeRand.getV r = s.getV r := by
  unfold State.consumeRand State.getV; split <;> rfl

/-- Consuming a random byte writes the model's own two fields alone. -/
theorem State.consumeRand_eq (s : State) :
    s.consumeRand = { s with randInputs := s.consumeRand.randInputs, randDraws := s.consumeRand.randDraws } := by
  unfold State.consumeRand; split <;> rfl

end Sys2Proof.Machine
end

