-- ==== Sys2Proof/Laws/Memory.lean ====
section
/-! SUPPORT. Memory: a read after a write (20_memory.md R61, R62), and the canonical form that every write keeps. -/

namespace Sys2Proof.Machine

theorem lookupCell_removeCell (cells : List Host.Cell) (a b : Nat) :
    lookupCell (removeCell a cells) b = if b = a then none else lookupCell cells b := by
  induction cells with
  | nil => simp [removeCell, lookupCell]
  | cons c rest ih =>
    obtain ⟨k, d⟩ := c
    have hf : removeCell a ((k, d) :: rest) = if k = a then removeCell a rest else (k, d) :: removeCell a rest := by
      by_cases hk : k = a <;> simp [removeCell, hk]
    rw [hf]
    by_cases hk : k = a
    · rw [if_pos hk, ih]
      by_cases hb : b = a
      · rw [if_pos hb, if_pos hb]
      · rw [if_neg hb, if_neg hb, lookupCell, if_neg (by omega)]
    · rw [if_neg hk, lookupCell, lookupCell, ih]
      by_cases hb : k = b
      · rw [if_pos hb, if_pos hb, if_neg (by omega)]
      · rw [if_neg hb, if_neg hb]

theorem lookupCell_insertCell (cells : List Host.Cell) (a b : Nat) (c : Byte) (h : lookupCell cells a = none) :
    lookupCell (insertCell a c cells) b = if b = a then some c else lookupCell cells b := by
  induction cells with
  | nil => simp [insertCell, lookupCell, eq_comm]
  | cons d rest ih =>
    simp only [lookupCell] at h
    split at h
    · cases h
    · next hd =>
      simp only [insertCell]
      split
      · simp only [lookupCell]
        simp [eq_comm]
      · simp only [lookupCell, ih h]
        split <;> split <;> first | rfl | omega

/-- A read after a write gives the byte written there and every other byte as it was (20_memory.md R61, R62). -/
@[simp] theorem State.writeByte_readByte (s : State) (a : Nat) (b : Byte) (m : Nat) :
    (s.writeByte a b).readByte m = if m = a then b else s.readByte m := by
  simp only [State.readByte, State.writeByte]
  split
  · next hb =>
    rw [lookupCell_removeCell]
    split
    · next hm => subst hm; simp [hb]
    · rfl
  · rw [lookupCell_insertCell _ _ _ _ (by simp [lookupCell_removeCell]), lookupCell_removeCell]
    split
    · rfl
    · rfl

/-! ### Several bytes -/

/-- Writing bytes changes memory alone. -/
theorem State.writeBytes_eq (s : State) (a : Nat) (bs : List Byte) :
    s.writeBytes a bs = { s with mem := (s.writeBytes a bs).mem } := by
  induction bs generalizing s a with
  | nil => rfl
  | cons b rest ih => rw [State.writeBytes, ih]; rfl

@[simp] theorem State.writeBytes_params (s : State) (a : Nat) (bs : List Byte) :
    (s.writeBytes a bs).params = s.params := by rw [State.writeBytes_eq]

@[simp] theorem State.writeBytes_pc (s : State) (a : Nat) (bs : List Byte) :
    (s.writeBytes a bs).pc = s.pc := by rw [State.writeBytes_eq]

@[simp] theorem State.writeBytes_i (s : State) (a : Nat) (bs : List Byte) :
    (s.writeBytes a bs).i = s.i := by rw [State.writeBytes_eq]

@[simp] theorem State.writeBytes_v (s : State) (a : Nat) (bs : List Byte) :
    (s.writeBytes a bs).v = s.v := by rw [State.writeBytes_eq]

@[simp] theorem State.writeBytes_stack (s : State) (a : Nat) (bs : List Byte) :
    (s.writeBytes a bs).stack = s.stack := by rw [State.writeBytes_eq]

@[simp] theorem State.writeBytes_runState (s : State) (a : Nat) (bs : List Byte) :
    (s.writeBytes a bs).runState = s.runState := by rw [State.writeBytes_eq]

@[simp] theorem State.writeBytes_fault (s : State) (a : Nat) (bs : List Byte) :
    (s.writeBytes a bs).fault = s.fault := by rw [State.writeBytes_eq]

/-- What every byte reads as once `bs` is written from `a` on. -/
theorem State.writeBytes_readByte (s : State) (a : Nat) (bs : List Byte) (m : Nat) :
    (s.writeBytes a bs).readByte m =
      if a ≤ m ∧ m < a + bs.length then bs.getD (m - a) 0 else s.readByte m := by
  induction bs generalizing s a with
  | nil => rw [if_neg (by simp)]; rfl
  | cons b rest ih =>
    rw [State.writeBytes, ih, State.writeByte_readByte]
    simp only [List.length_cons]
    by_cases h0 : m = a
    · subst h0
      rw [if_neg (by omega), if_pos rfl, if_pos (by omega)]
      simp
    · rw [if_neg h0]
      by_cases h1 : a + 1 ≤ m ∧ m < a + 1 + rest.length
      · rw [if_pos h1, if_pos (by omega)]
        obtain ⟨k, rfl⟩ : ∃ k, m = a + 1 + k := ⟨m - (a + 1), by omega⟩
        rw [show a + 1 + k - (a + 1) = k by omega, show a + 1 + k - a = k + 1 by omega]
        simp
      · rw [if_neg h1, if_neg (by omega)]

/-! ### The canonical form -/

theorem memoryWf_tail {p : Config.Params} {c : Host.Cell} {rest : List Host.Cell} (h : memoryWf p (c :: rest) = true) :
    memoryWf p rest = true := by
  obtain ⟨a, b⟩ := c
  cases rest with
  | nil => rfl
  | cons d rest => simp only [memoryWf, Bool.and_eq_true] at h; exact h.2

/-- The canonical form, said of all entries at once. -/
theorem memoryWf_iff (p : Config.Params) (cells : List Host.Cell) :
    memoryWf p cells = true ↔
      cells.Pairwise (fun c d => c.1 < d.1) ∧ ∀ c ∈ cells, c.1 < 4096 ∧ c.2 ≠ unlistedByte p c.1 := by
  induction cells with
  | nil => simp [memoryWf]
  | cons c rest ih =>
    obtain ⟨a, b⟩ := c
    cases rest with
    | nil => simp [memoryWf]
    | cons d rest =>
      obtain ⟨a', b'⟩ := d
      simp only [memoryWf, Bool.and_eq_true, decide_eq_true_eq, bne_iff_ne, ih, List.pairwise_cons, List.mem_cons,
        forall_eq_or_imp]
      constructor
      · rintro ⟨⟨hlt, hne⟩, ⟨hall, hpw⟩, hd, hrest⟩
        refine ⟨⟨⟨hlt, fun e he => ?_⟩, hall, hpw⟩, ⟨by omega, hne⟩, hd, hrest⟩
        have := hall e he
        omega
      · rintro ⟨⟨⟨hlt, -⟩, hall, hpw⟩, ⟨-, hne⟩, hd, hrest⟩
        exact ⟨⟨hlt, hne⟩, ⟨hall, hpw⟩, hd, hrest⟩

theorem mem_insertCell {a : Nat} {b : Byte} {cells : List Host.Cell} {c : Host.Cell} (h : c ∈ insertCell a b cells) :
    c = (a, b) ∨ c ∈ cells := by
  induction cells with
  | nil => simpa [insertCell] using h
  | cons d rest ih =>
    simp only [insertCell] at h
    split at h
    · simpa using h
    · rcases List.mem_cons.1 h with h | h
      · simp [h]
      · rcases ih h with h | h <;> simp [h]

theorem pairwise_insertCell {a : Nat} {b : Byte} {cells : List Host.Cell}
    (h : cells.Pairwise (fun c d => c.1 < d.1)) (hn : ∀ c ∈ cells, c.1 ≠ a) :
    (insertCell a b cells).Pairwise (fun c d => c.1 < d.1) := by
  induction cells with
  | nil => simp [insertCell]
  | cons d rest ih =>
    obtain ⟨hd, hrest⟩ := List.pairwise_cons.1 h
    simp only [insertCell]
    split
    · next hlt =>
      refine List.pairwise_cons.2 ⟨fun e he => ?_, h⟩
      rcases List.mem_cons.1 he with he | he
      · simpa [he] using hlt
      · have := hd e he
        simp only at hlt ⊢
        omega
    · next hlt =>
      refine List.pairwise_cons.2 ⟨fun e he => ?_, ih hrest fun c hc => hn c (List.mem_cons_of_mem _ hc)⟩
      rcases mem_insertCell he with he | he
      · have := hn d List.mem_cons_self
        simp only [he]
        omega
      · exact hd e he

/-- A write to an address of the space keeps memory's canonical form. -/
theorem State.writeByte_memoryWf {s : State} {a : Nat} (b : Byte) (ha : a ≤ 0xFFF)
    (h : memoryWf s.params s.mem = true) :
    memoryWf (s.writeByte a b).params (s.writeByte a b).mem = true := by
  rw [memoryWf_iff] at h ⊢
  obtain ⟨hp, hall⟩ := h
  have hp' : (removeCell a s.mem).Pairwise (fun c d => c.1 < d.1) := hp.filter _
  have hall' : ∀ c ∈ removeCell a s.mem, c.1 < 4096 ∧ c.2 ≠ unlistedByte s.params c.1 :=
    fun c hc => hall c (List.mem_of_mem_filter hc)
  simp only [State.writeByte]
  split
  · exact ⟨hp', hall'⟩
  · next hb =>
    refine ⟨pairwise_insertCell hp' fun c hc => ?_, fun c hc => ?_⟩
    · simpa [removeCell] using (List.mem_filter.1 hc).2
    · rcases mem_insertCell hc with rfl | hc
      · exact ⟨by omega, hb⟩
      · exact hall' c hc

/-- Writes inside the space keep memory's canonical form. -/
theorem State.writeBytes_memoryWf {s : State} {a : Nat} {bs : List Byte} (ha : a + bs.length ≤ 0x1000)
    (h : memoryWf s.params s.mem = true) : memoryWf s.params (s.writeBytes a bs).mem = true := by
  induction bs generalizing s a with
  | nil => exact h
  | cons b rest ih =>
    simp only [List.length_cons] at ha
    exact ih (s := s.writeByte a b) (by omega) (State.writeByte_memoryWf b (by omega) h)

/-- In the space, `MemWrite` of 20_memory.md R52 is the plain write: the loops that run after R60's check never fault. -/
theorem State.memWrite_eq (s : State) {a : Nat} (b : Byte) (ha : a ≤ 0xFFF) : s.memWrite a b = some (s.writeByte a b) := by
  simp [State.memWrite, inBounds, ha]

/-- `MemRead` of 20_memory.md R52. -/
theorem State.memRead_eq (s : State) (a : Nat) :
    s.memRead a = if a ≤ 0xFFF then some (s.readByte a) else none := by
  simp [State.memRead, inBounds]

end Sys2Proof.Machine
end

