-- ==== Sys2Proof/Laws/Draw.lean ====
section
/-! SUPPORT. What a blit does to each pixel and when it collides (45_draw.md R191 to R194). -/

namespace Sys2Proof.Machine

theorem flipPixel_pixel (fb : Framebuffer) (y y' : Fin 32) (x x' : Fin 64) :
    pixel (flipPixel fb y x) y' x' = (pixel fb y' x' ^^ (decide (y' = y) && decide (x' = x))) := by
  unfold pixel flipPixel
  by_cases hy : y' = y
  · subst hy
    by_cases hx : x' = x
    · simp [hx, BitVec.getElem_twoPow]
    · have hv : ¬ x'.val = x.val := fun h => hx (Fin.ext h)
      simp [BitVec.getElem_twoPow, hx, hv]
  · have hv : y.val ≠ y'.val := fun h => hy (Fin.ext h.symm)
    simp [hv, hy]

theorem plotBit_pixel (bit : Bool) (y x : Nat) (c : Canvas) (y' : Fin 32) (x' : Fin 64) :
    pixel (plotBit bit y x c).fb y' x' =
      (pixel c.fb y' x' ^^ (bit && (decide (y' = wrapY y) && decide (x' = wrapX x)))) := by
  cases bit <;> simp [plotBit, flipPixel_pixel]

theorem plotBit_collision (bit : Bool) (y x : Nat) (c : Canvas) :
    (plotBit bit y x c).collision = (c.collision || (bit && pixel c.fb (wrapY y) (wrapX x))) := by
  cases bit <;> simp [plotBit]

/-- The column of the sprite that lands on the pixel column `x`, if it is below 8. -/
def spriteCol (x0 : Nat) (x : Fin 64) : Nat := (x.val + (64 - x0 % 64)) % 64

/-- The row of the sprite that lands on the pixel row `y`, if the sprite has so many. -/
def spriteRow (y0 : Nat) (y : Fin 32) : Nat := (y.val + (32 - y0 % 32)) % 32

theorem wrapX_eq_iff (x0 col : Nat) (hc : col < 64) (x : Fin 64) : x = wrapX (x0 + col) ↔ spriteCol x0 x = col := by
  have := x.isLt
  simp only [Fin.ext_iff, wrapX, spriteCol]
  omega

theorem wrapY_eq_iff (y0 row : Nat) (hr : row < 32) (y : Fin 32) : y = wrapY (y0 + row) ↔ spriteRow y0 y = row := by
  have := y.isLt
  simp only [Fin.ext_iff, wrapY, spriteRow]
  omega

theorem spriteRow_succ (y0 : Nat) (y : Fin 32) :
    spriteRow y0 y = if y = wrapY y0 then 0 else spriteRow (y0 + 1) y + 1 := by
  have := y.isLt
  simp only [Fin.ext_iff, wrapY, spriteRow]
  split <;> omega

theorem plotRow_step (b : Byte) (y x0 : Nat) (c : Canvas) :
    plotRow b y x0 c =
      plotBit (b.getLsbD 0) y (x0 + 7) (plotBit (b.getLsbD 1) y (x0 + 6) (plotBit (b.getLsbD 2) y (x0 + 5)
        (plotBit (b.getLsbD 3) y (x0 + 4) (plotBit (b.getLsbD 4) y (x0 + 3) (plotBit (b.getLsbD 5) y (x0 + 2)
          (plotBit (b.getLsbD 6) y (x0 + 1) (plotBit (b.getLsbD 7) y (x0 + 0) c))))))) := rfl

/-- A sprite byte toggles the pixels under its set bits and no other. -/
theorem plotRow_pixel (b : Byte) (y x0 : Nat) (c : Canvas) (y' : Fin 32) (x' : Fin 64) :
    pixel (plotRow b y x0 c).fb y' x' =
      (pixel c.fb y' x' ^^ (decide (y' = wrapY y) && (decide (spriteCol x0 x' < 8) && b.getLsbD (7 - spriteCol x0 x')))) := by
  rw [plotRow_step]
  simp only [plotBit_pixel, wrapX_eq_iff x0 _ (by omega : 0 < 64), wrapX_eq_iff x0 _ (by omega : 1 < 64),
    wrapX_eq_iff x0 _ (by omega : 2 < 64), wrapX_eq_iff x0 _ (by omega : 3 < 64), wrapX_eq_iff x0 _ (by omega : 4 < 64),
    wrapX_eq_iff x0 _ (by omega : 5 < 64), wrapX_eq_iff x0 _ (by omega : 6 < 64), wrapX_eq_iff x0 _ (by omega : 7 < 64)]
  by_cases hy : y' = wrapY y
  · by_cases hc : spriteCol x0 x' < 8
    · have h8 : spriteCol x0 x' = 0 ∨ spriteCol x0 x' = 1 ∨ spriteCol x0 x' = 2 ∨ spriteCol x0 x' = 3 ∨
          spriteCol x0 x' = 4 ∨ spriteCol x0 x' = 5 ∨ spriteCol x0 x' = 6 ∨ spriteCol x0 x' = 7 := by omega
      rcases h8 with h | h | h | h | h | h | h | h <;> simp [h, hy]
    · have hne : ∀ k < 8, ¬spriteCol x0 x' = k := fun k hk h => hc (h ▸ hk)
      simp [hc, hne 0, hne 1, hne 2, hne 3, hne 4, hne 5, hne 6, hne 7]
  · simp [hy]

theorem wrapX_inj (x0 a b : Nat) (ha : a < 8) (hb : b < 8) : wrapX (x0 + a) = wrapX (x0 + b) ↔ a = b := by
  simp only [wrapX, Fin.mk.injEq]; omega

/-- A sprite byte collides when one of its set bits meets a set pixel. -/
theorem plotRow_collision (b : Byte) (y x0 : Nat) (c : Canvas) :
    (plotRow b y x0 c).collision = true ↔
      c.collision = true ∨ ∃ col < 8, b.getLsbD (7 - col) = true ∧ pixel c.fb (wrapY y) (wrapX (x0 + col)) = true := by
  rw [plotRow_step]
  simp only [plotBit_collision, plotBit_pixel, wrapX_inj, Bool.or_eq_true, Bool.and_eq_true, decide_true, Nat.lt_add_one,
    Nat.reduceLT, Nat.reduceEqDiff, decide_false, Bool.and_false, Bool.xor_false, Nat.zero_lt_succ]
  constructor
  · rintro ((((((((h | h) | h) | h) | h) | h) | h) | h) | h)
    · exact Or.inl h
    · exact Or.inr ⟨0, by omega, h⟩
    · exact Or.inr ⟨1, by omega, by simpa using h⟩
    · exact Or.inr ⟨2, by omega, by simpa using h⟩
    · exact Or.inr ⟨3, by omega, by simpa using h⟩
    · exact Or.inr ⟨4, by omega, by simpa using h⟩
    · exact Or.inr ⟨5, by omega, by simpa using h⟩
    · exact Or.inr ⟨6, by omega, by simpa using h⟩
    · exact Or.inr ⟨7, by omega, by simpa using h⟩
  · rintro (h | ⟨col, hlt, h⟩)
    · simp [h]
    · have h8 : col = 0 ∨ col = 1 ∨ col = 2 ∨ col = 3 ∨ col = 4 ∨ col = 5 ∨ col = 6 ∨ col = 7 := by omega
      rcases h8 with rfl | rfl | rfl | rfl | rfl | rfl | rfl | rfl <;> simp_all

/-- The sprite toggles the pixels under its set bits and no other (no sprite has more than 32 rows). -/
theorem plotSprite_pixel (x0 : Nat) (bs : List Byte) (y0 : Nat) (c : Canvas) (hl : bs.length ≤ 32) (y : Fin 32) (x : Fin 64) :
    pixel (plotSprite x0 bs y0 c).fb y x =
      (pixel c.fb y x ^^ (decide (spriteRow y0 y < bs.length) &&
        (decide (spriteCol x0 x < 8) && (bs.getD (spriteRow y0 y) 0).getLsbD (7 - spriteCol x0 x)))) := by
  induction bs generalizing y0 c with
  | nil => simp [plotSprite]
  | cons b rest ih =>
    simp only [List.length_cons] at hl
    rw [plotSprite, ih _ _ (by omega), plotRow_pixel, spriteRow_succ y0 y]
    by_cases hy : y = wrapY y0
    · have h31 : spriteRow (y0 + 1) y = 31 := by
        have := y.isLt
        simp only [Fin.ext_iff, wrapY, spriteRow] at hy ⊢
        omega
      have : ¬ 31 < rest.length := by omega
      rw [h31]
      simp [hy, this]
    · simp [hy]

/-- The sprite collides when one of its set bits meets a pixel that was set before the drawing. -/
theorem plotSprite_collision (x0 : Nat) (bs : List Byte) (y0 : Nat) (c : Canvas) (hl : bs.length ≤ 32) :
    (plotSprite x0 bs y0 c).collision = true ↔
      c.collision = true ∨ ∃ row < bs.length, ∃ col < 8, (bs.getD row 0).getLsbD (7 - col) = true ∧
        pixel c.fb (wrapY (y0 + row)) (wrapX (x0 + col)) = true := by
  induction bs generalizing y0 c with
  | nil => simp [plotSprite]
  | cons b rest ih =>
    simp only [List.length_cons] at hl
    rw [plotSprite, ih _ _ (by omega), plotRow_collision, or_assoc]
    have hne : ∀ row < rest.length, ¬ wrapY (y0 + 1 + row) = wrapY y0 := by
      intro row hr h
      simp only [wrapY, Fin.mk.injEq] at h
      omega
    constructor
    · rintro (h | ⟨col, hc, h⟩ | ⟨row, hr, col, hc, h, hp⟩)
      · exact Or.inl h
      · exact Or.inr ⟨0, by simp, col, hc, by simpa using h⟩
      · refine Or.inr ⟨row + 1, by simpa using hr, col, hc, by simpa using h, ?_⟩
        rw [plotRow_pixel, decide_eq_false (hne row hr), Bool.false_and, Bool.xor_false] at hp
        simpa [Nat.add_assoc, Nat.add_comm 1 row] using hp
    · rintro (h | ⟨row, hr, col, hc, h, hp⟩)
      · exact Or.inl h
      · cases row with
        | zero => exact Or.inr (Or.inl ⟨col, hc, by simpa using h, by simpa using hp⟩)
        | succ row =>
          have hr' : row < rest.length := by simpa using hr
          refine Or.inr (Or.inr ⟨row, hr', col, hc, by simpa using h, ?_⟩)
          rw [plotRow_pixel, decide_eq_false (hne row hr'), Bool.false_and, Bool.xor_false]
          simpa [Nat.add_assoc, Nat.add_comm 1 row] using hp

theorem State.spriteBytes_length (s : State) (n : Nibble) : (s.spriteBytes n).length = n.toNat := by
  simp [State.spriteBytes]

theorem State.spriteBytes_getD (s : State) (n : Nibble) (row : Nat) (h : row < n.toNat) :
    (s.spriteBytes n).getD row 0 = s.readByte (s.i.toNat + row) := by
  simp [State.spriteBytes, State.effAddr, h]

theorem spriteCovers_iff (s : State) (x y n : Nibble) (py : Fin 32) (px : Fin 64) :
    SpriteCovers s x y n py px ↔
      spriteRow (s.getV y).toNat py < n.toNat ∧ spriteCol (s.getV x).toNat px < 8 ∧
        (s.readByte (s.i.toNat + spriteRow (s.getV y).toNat py)).getLsbD (7 - spriteCol (s.getV x).toNat px) = true := by
  have hn := n.isLt
  constructor
  · rintro ⟨row, hr, col, hc, hy, hx, hb⟩
    have h1 := (wrapY_eq_iff (s.getV y).toNat row (by omega) py).1 (Fin.ext hy.symm)
    have h2 := (wrapX_eq_iff (s.getV x).toNat col (by omega) px).1 (Fin.ext hx.symm)
    rw [h1, h2]
    exact ⟨hr, hc, hb⟩
  · rintro ⟨hr, hc, hb⟩
    have h1 := (wrapY_eq_iff (s.getV y).toNat _ (by omega) py).2 rfl
    have h2 := (wrapX_eq_iff (s.getV x).toNat _ (by omega) px).2 rfl
    exact ⟨_, hr, _, hc, (congrArg Fin.val h1).symm, (congrArg Fin.val h2).symm, hb⟩

/-- DRW toggles exactly the pixels its sprite covers (45_draw.md R191). -/
theorem State.blit_pixel (s : State) (x y n : Nibble) (py : Fin 32) (px : Fin 64) :
    (SpriteCovers s x y n py px → pixel (s.blit x y n).fb py px = !pixel s.fb py px) ∧
      (¬SpriteCovers s x y n py px → pixel (s.blit x y n).fb py px = pixel s.fb py px) := by
  have hn := n.isLt
  rw [spriteCovers_iff, State.blit, plotSprite_pixel _ _ _ _ (by rw [State.spriteBytes_length]; omega),
    State.spriteBytes_length]
  by_cases hr : spriteRow (s.getV y).toNat py < n.toNat
  · rw [State.spriteBytes_getD _ _ _ hr]
    by_cases hc : spriteCol (s.getV x).toNat px < 8
    · simp only [hr, hc, decide_true, Bool.true_and, true_and]
      constructor
      · intro h; simp [h]
      · intro h; simp [h]
    · simp [hr, hc]
  · simp [hr]

/-- DRW collides when a pixel its sprite covers was set (45_draw.md R191). -/
theorem State.blit_collision (s : State) (x y n : Nibble) :
    (s.blit x y n).collision = true ↔ ∃ py px, SpriteCovers s x y n py px ∧ pixel s.fb py px = true := by
  have hn := n.isLt
  rw [State.blit, plotSprite_collision _ _ _ _ (by rw [State.spriteBytes_length]; omega), State.spriteBytes_length]
  constructor
  · rintro (h | ⟨row, hr, col, hc, hb, hp⟩)
    · cases h
    · rw [State.spriteBytes_getD _ _ _ hr] at hb
      exact ⟨_, _, ⟨row, hr, col, hc, rfl, rfl, hb⟩, hp⟩
  · rintro ⟨py, px, ⟨row, hr, col, hc, hy, hx, hb⟩, hp⟩
    refine Or.inr ⟨row, hr, col, hc, by rwa [State.spriteBytes_getD _ _ _ hr], ?_⟩
    rwa [show wrapY ((s.getV y).toNat + row) = py from Fin.ext hy, show wrapX ((s.getV x).toNat + col) = px from Fin.ext hx]

end Sys2Proof.Machine
end

