-- ==== Sys2Proof/Laws/Ops.lean ====
section
/-! SUPPORT. One lemma per shared operation, saying once everything it can do: the stack, the fetch, the key poll, the bulk
operands. -/

namespace Sys2Proof.Machine

/-! ### Call stack -/

/-- Push answers none exactly when 16 addresses are held (41_control.md R123). -/
theorem State.push_full {s : State} (a : Word) (h : s.sp.val = 16) : s.push a = none := by
  rw [State.push, dif_neg (by omega)]

/-- Push below 16 writes `stack[sp]` and `sp` alone. -/
theorem State.push_some {s : State} (a : Word) (h : s.sp.val < 16) :
    s.push a = some { s with stack := s.stack.set s.sp.val a h, sp := ⟨s.sp.val + 1, by omega⟩ } := by
  rw [State.push, dif_pos h]

/-- Pop answers none exactly when no address is held (41_control.md R121). -/
theorem State.pop_empty {s : State} (h : s.sp.val = 0) : s.pop = none := by
  rw [State.pop, dif_neg (by omega)]

/-- Pop above 0 answers `stack[sp - 1]` and writes `sp` alone. -/
theorem State.pop_some {s : State} (h : 0 < s.sp.val) :
    s.pop = some (s.stack[s.sp.val - 1]'(by omega), { s with sp := ⟨s.sp.val - 1, by omega⟩ }) := by
  rw [State.pop, dif_pos h]

/-- Whatever pop answers: the address is a stack entry and only `sp` differs. -/
theorem State.pop_cases {s t : State} {a : Word} (h : s.pop = some (a, t)) :
    ∃ k : Fin 16, a = s.stack[k] ∧ t = { s with sp := t.sp } ∧ t.sp.val + 1 = s.sp.val ∧ k.val = t.sp.val := by
  unfold State.pop at h
  split at h
  · next hlt =>
    cases h
    exact ⟨⟨s.sp.val - 1, by omega⟩, rfl, rfl, by simp only; omega, rfl⟩
  · cases h

/-- Whatever push answers: one stack entry is the address, the others and every other element are as before. -/
theorem State.push_cases {s t : State} {a : Word} (h : s.push a = some t) :
    t = { s with stack := t.stack, sp := t.sp } ∧ t.sp.val = s.sp.val + 1 ∧
      ∀ k : Fin 16, t.stack[k] = if k.val = s.sp.val then a else s.stack[k] := by
  unfold State.push at h
  split at h
  · next hlt =>
    cases h
    exact ⟨rfl, rfl, fun k => by simp [Vector.getElem_set, eq_comm]⟩
  · cases h

/-! ### Fetch -/

/-- The fetch (40_cycle_engine.md R103): the two bytes at `pc`, high byte first, or out of bounds. -/
theorem State.fetch_eq (s : State) :
    s.fetch = if s.pc.toNat ≤ 0xFFE then some (wordOfBytes (s.readByte s.pc.toNat) (s.readByte (s.pc.toNat + 1)))
      else none := by
  rw [State.fetch, State.memRead_eq, State.memRead_eq]
  by_cases h : s.pc.toNat ≤ 0xFFE
  · rw [if_pos (by omega), if_pos (by omega), if_pos h]
  · rw [if_neg h, if_neg (by omega : ¬ s.pc.toNat + 1 ≤ 0xFFF)]
    split <;> simp_all

theorem State.fetch_some {s : State} {w : Word} (h : s.fetch = some w) : s.pc.toNat ≤ 0xFFE := by
  rw [State.fetch_eq] at h
  by_contra hn
  rw [if_neg hn] at h
  cases h

/-! ### Key poll -/

theorem firstDown_none {ks : List Bool} {n : Nat} : firstDown ks n = none ↔ ∀ b ∈ ks, b = false := by
  induction ks generalizing n with
  | nil => simp [firstDown]
  | cons d rest ih =>
    cases d <;> simp [firstDown, ih]

theorem firstDown_some {ks : List Bool} {n k : Nat} (h : firstDown ks n = some k) :
    ∃ j, k = n + j ∧ ks[j]? = some true ∧ ∀ i < j, ks[i]? = some false := by
  induction ks generalizing n with
  | nil => simp [firstDown] at h
  | cons d rest ih =>
    cases d with
    | true =>
      simp only [firstDown, if_true, Option.some.injEq] at h
      exact ⟨0, by omega, rfl, fun i hi => by omega⟩
    | false =>
      simp only [firstDown, Bool.false_eq_true, if_false] at h
      obtain ⟨j, hj, ht, hlt⟩ := ih h
      refine ⟨j + 1, by omega, by simpa using ht, fun i hi => ?_⟩
      cases i with
      | zero => rfl
      | succ i => simpa using hlt i (by omega)

/-- The poll (40_cycle_engine.md R102): no key is down and nothing changes, or the least key that is down goes to `V[wait_reg]`
and the engine runs. -/
theorem State.pollKeys_cases (s : State) :
    ((∀ k, s.keyDown k = false) ∧ s.pollKeys = s) ∨
      ∃ k : Nibble, s.keyDown k = true ∧ (∀ j : Nibble, j.toNat < k.toNat → s.keyDown j = false) ∧
        s.pollKeys = { s.setV s.waitReg (BitVec.ofNat 8 k.toNat) with runState := .running } := by
  unfold State.pollKeys
  cases h : firstDown s.keys.toList 0 with
  | none =>
    refine Or.inl ⟨fun k => ?_, rfl⟩
    rw [firstDown_none] at h
    exact h _ (by simp [State.keyDown])
  | some k =>
    obtain ⟨j, hj, ht, hlt⟩ := firstDown_some h
    rw [Nat.zero_add] at hj
    subst hj
    have hk : k < 16 := by
      have := List.getElem?_eq_some_iff.1 ht
      simpa using this.1
    have hn : (BitVec.ofNat 4 k).toNat = k := by simp; omega
    refine Or.inr ⟨BitVec.ofNat 4 k, ?_, fun i hi => ?_, by rw [hn]⟩
    · simp only [State.keyDown, hn]
      simpa [hk] using ht
    · have := hlt i.toNat (by omega)
      have hi16 := i.isLt
      simp only [State.keyDown]
      simpa [Vector.getElem?_eq_getElem hi16] using this

/-! ### Bounds of an effective address -/

/-- The check of 20_memory.md R60, in the terms of R57. -/
theorem State.inBounds_effAddr (s : State) (k : Nat) : inBounds (s.effAddr k) = true ↔ s.i.toNat + k ≤ 0xFFF :=
  decide_eq_true_iff

theorem State.not_inBounds_effAddr (s : State) (k : Nat) : inBounds (s.effAddr k) = false ↔ 0xFFF < s.i.toNat + k :=
  decide_eq_false_iff_not.trans Nat.not_le

/-! ### Bulk operands -/

theorem State.regsUpTo_length (s : State) (x : Nibble) : (s.regsUpTo x).length = x.toNat + 1 := by
  have := x.isLt
  simp only [State.regsUpTo, List.length_take, Vector.length_toList]
  omega

theorem State.regsUpTo_getD (s : State) (x : Nibble) (k : Nat) (h : k ≤ x.toNat) :
    (s.regsUpTo x).getD k 0 = s.getV (BitVec.ofNat 4 k) := by
  have := x.isLt
  have hk : k < 16 := by omega
  have hm : k % 16 = k := Nat.mod_eq_of_lt hk
  have hlt : k < x.toNat + 1 := by omega
  simp [State.regsUpTo, State.getV, hk, hm, hlt]

theorem foldl_loadRegs (s : State) (n : Nat) (hn : n ≤ 16) :
    let t := (List.range n).foldl (fun t k => t.setV (BitVec.ofNat 4 k) (t.readByte (t.effAddr k))) s
    t = { s with v := t.v } ∧
      ∀ r : Nibble, t.getV r = if r.toNat < n then s.readByte (s.i.toNat + r.toNat) else s.getV r := by
  induction n with
  | zero => exact ⟨rfl, fun r => by simp⟩
  | succ n ih =>
    obtain ⟨h1, h2⟩ := ih (by omega)
    simp only [List.range_succ, List.foldl_append, List.foldl_cons, List.foldl_nil]
    generalize (List.range n).foldl (fun t k => t.setV (BitVec.ofNat 4 k) (t.readByte (t.effAddr k))) s = t at h1 h2
    refine ⟨by rw [h1]; rfl, fun r => ?_⟩
    have hr := r.isLt
    have hiff : r = BitVec.ofNat 4 n ↔ r.toNat = n := by
      rw [← BitVec.toNat_inj]; simp; omega
    have hb : ∀ m, t.readByte m = s.readByte m := by rw [h1]; exact fun _ => rfl
    have hi : t.i = s.i := by rw [h1]
    rw [State.setV_getV, h2, hb, State.effAddr, hi]
    by_cases h : r.toNat = n
    · rw [if_pos (hiff.2 h), if_pos (by omega), h]
    · rw [if_neg (fun he => h (hiff.1 he))]
      split <;> split <;> first | rfl | omega

/-- The bulk load writes V0..VX from memory and nothing else (43_memory_index.md R165). -/
theorem State.loadRegs_getV (s : State) (x r : Nibble) :
    (s.loadRegs x).getV r = if r.toNat ≤ x.toNat then s.readByte (s.i.toNat + r.toNat) else s.getV r := by
  have hx := x.isLt
  have := (foldl_loadRegs s (x.toNat + 1) (by omega)).2 r
  simp only [Nat.lt_succ_iff] at this
  exact this

theorem State.loadRegs_eq (s : State) (x : Nibble) : s.loadRegs x = { s with v := (s.loadRegs x).v } := by
  have hx := x.isLt
  exact (foldl_loadRegs s (x.toNat + 1) (by omega)).1

end Sys2Proof.Machine
end

