-- ==== Sys2Proof/Laws/Exec.lean ====
section
/-! SUPPORT. The STEP stage by stage, and once for all instructions: what an executed instruction can answer. -/

namespace Sys2Proof.Machine

/-! ### The stages of a STEP (40_cycle_engine.md R115) -/

theorem step_halted {s : State} (h : s.runState = .halted) : step s = .fault (.alreadyHalted s.fault) := by
  unfold step; rw [h]

theorem step_waiting {s : State} (h : s.runState = .waitingForKey) : step s = .next s.pollKeys := by
  unfold step; rw [h]

theorem step_fetch_fault {s : State} (h : s.runState = .running) (hf : s.fetch = none) :
    step s = .next (s.raise .memoryOutOfBounds none) := by
  unfold step; rw [h]; simp only [hf]

theorem step_unknown {s : State} {w : Word} (h : s.runState = .running) (hf : s.fetch = some w)
    (hd : decodeWord w = .unknownOpcode) : step s = .next (s.raise .unknownOpcode (some w)) := by
  unfold step; rw [h]; simp only [hf, hd]

theorem step_exec {s : State} {w : Word} {i : Instr} (h : s.runState = .running) (hf : s.fetch = some w)
    (hd : decodeWord w = .op i) : step s = exec i s := by
  unfold step; rw [h]; simp only [hf, hd]

/-- What a RUNNING STEP is, by the stage it reaches (60_exceptions.md R223). -/
theorem step_running_cases {s : State} (h : s.runState = .running) :
    (s.fetch = none ∧ 0xFFF ≤ s.pc.toNat ∧ step s = .next (s.raise .memoryOutOfBounds none)) ∨
      (∃ w, s.fetch = some w ∧ decodeWord w = .unknownOpcode ∧ step s = .next (s.raise .unknownOpcode (some w))) ∨
      ∃ w i, s.fetch = some w ∧ decodeWord w = .op i ∧ step s = exec i s := by
  cases hf : s.fetch with
  | none =>
    refine Or.inl ⟨rfl, ?_, step_fetch_fault h hf⟩
    by_contra hp
    rw [State.fetch_eq, if_pos (by omega)] at hf
    cases hf
  | some w =>
    cases hd : decodeWord w with
    | unknownOpcode => exact Or.inr (Or.inl ⟨w, rfl, hd, step_unknown h hf hd⟩)
    | op i => exact Or.inr (Or.inr ⟨w, i, rfl, hd, step_exec h hf hd⟩)

/-! ### The execute stage -/

/-- The one fault condition an instruction has (60_exceptions.md R220, R223). -/
def execFault (i : Instr) (s : State) (kind : FaultKind) : Prop :=
  (∃ nnn, i = .sys nnn ∧ s.params.sysMode = .halt ∧ kind = .unknownOpcode) ∨
  (∃ nnn, i = .call nnn ∧ s.sp.val = 16 ∧ kind = .stackOverflow) ∨
  (i = .ret ∧ s.sp.val = 0 ∧ kind = .stackUnderflow) ∨
  (∃ x y n, i = .drw x y n ∧ 0 < n.toNat ∧ 0xFFF < s.i.toNat + n.toNat - 1 ∧ kind = .memoryOutOfBounds) ∨
  (∃ x, i = .ldBVx x ∧ 0xFFF < s.i.toNat + 2 ∧ kind = .memoryOutOfBounds) ∨
  (∃ x, (i = .ldMemVx x ∨ i = .ldVxMem x) ∧ 0xFFF < s.i.toNat + x.toNat ∧ kind = .memoryOutOfBounds)

/-- DRW's check, in numbers (45_draw.md R191, R194). -/
theorem drw_check (s : State) (n : Nibble) :
    (n = 0x0#4 || inBounds (s.effAddr (n.toNat - 1))) = true ↔ n = 0x0#4 ∨ s.i.toNat + n.toNat - 1 ≤ 0xFFF := by
  rw [Bool.or_eq_true, decide_eq_true_eq, State.inBounds_effAddr]
  by_cases h0 : n = 0#4
  · simp [h0]
  · have : n.toNat ≠ 0 := fun h' => h0 (BitVec.eq_of_toNat_eq (by simpa using h'))
    constructor
    · rintro (h | h)
      · exact Or.inl h
      · right; omega
    · rintro (h | h)
      · exact Or.inl h
      · right; omega

/-- An executed instruction raises its one fault, with its own word and nothing else changed; or it has none, leaves the fault
record and (LD Vx, K apart) the run state, and the parameters and keys, and is not stopped. -/
theorem exec_cases (i : Instr) (s : State) :
    (∃ kind, execFault i s kind ∧ exec i s = .next (s.raise kind (some (encode i)))) ∨
      ((∀ kind, ¬execFault i s kind) ∧ ∃ t, exec i s = .next t ∧ t.fault = s.fault ∧ t.keys = s.keys ∧ t.params = s.params ∧
        (t.runState = s.runState ∨ ∃ x, i = .ldVxK x ∧ t.runState = .waitingForKey ∧ t.waitReg = x)) := by
  have skip : ∀ c : Bool, (s.skipIf c).fault = s.fault ∧ (s.skipIf c).keys = s.keys ∧ (s.skipIf c).params = s.params ∧
      (s.skipIf c).runState = s.runState := fun c => by rw [State.skipIf_eq]; exact ⟨rfl, rfl, rfl, rfl⟩
  cases i with
  | sys nnn =>
    simp only [exec, execSys]
    cases h : s.params.sysMode with
    | halt => exact Or.inl ⟨_, Or.inl ⟨nnn, rfl, h, rfl⟩, rfl⟩
    | ignore => exact Or.inr ⟨by simp [execFault, h], _, rfl, rfl, rfl, rfl, Or.inl rfl⟩
  | ret =>
    simp only [exec, execRet]
    by_cases h : s.sp.val = 0
    · rw [State.pop_empty h]
      exact Or.inl ⟨_, Or.inr (Or.inr (Or.inl ⟨rfl, h, rfl⟩)), rfl⟩
    · rw [State.pop_some (by omega)]
      exact Or.inr ⟨by simp [execFault]; exact fun h' => h (by rw [h']; rfl), _, rfl, rfl, rfl, rfl, Or.inl rfl⟩
  | call nnn =>
    simp only [exec, execCall]
    by_cases h : s.sp.val = 16
    · rw [State.push_full _ h]
      exact Or.inl ⟨_, Or.inr (Or.inl ⟨nnn, rfl, h, rfl⟩), rfl⟩
    · rw [State.push_some _ (by omega)]
      exact Or.inr ⟨by simp [execFault, h], _, rfl, rfl, rfl, rfl, Or.inl rfl⟩
  | drw x y n =>
    simp only [exec, execDrw]
    by_cases h : n = 0x0#4 ∨ s.i.toNat + n.toNat - 1 ≤ 0xFFF
    · rw [(drw_check s n).2 h]
      refine Or.inr ⟨?_, _, rfl, rfl, rfl, rfl, Or.inl rfl⟩
      rcases h with h | h
      · simp [execFault, h]
      · simp only [execFault]; rintro kind (⟨_, h', -⟩ | ⟨_, h', -⟩ | ⟨h', -⟩ | ⟨_, _, _, h', h2⟩ | ⟨_, h', -⟩ | ⟨_, h' | h', -⟩) <;> cases h'
        omega
    · rw [Bool.eq_false_iff.2 (fun hc => h ((drw_check s n).1 hc))]
      refine Or.inl ⟨_, Or.inr (Or.inr (Or.inr (Or.inl ⟨x, y, n, rfl, ?_, ?_, rfl⟩))), rfl⟩
      · rcases Nat.eq_zero_or_pos n.toNat with h0 | h0
        · exact absurd (Or.inl (BitVec.eq_of_toNat_eq (by simpa using h0))) h
        · exact h0
      · omega
  | ldBVx x =>
    simp only [exec, execLdBVx]
    by_cases h : s.i.toNat + 2 ≤ 0xFFF
    · rw [(State.inBounds_effAddr s 2).2 h]
      refine Or.inr ⟨?_, _, rfl, by simp, ?_, by simp, by simp⟩
      · simp [execFault]; omega
      · rw [State.writeBytes_eq]; rfl
    · rw [(State.not_inBounds_effAddr s 2).2 (by omega)]
      exact Or.inl ⟨_, Or.inr (Or.inr (Or.inr (Or.inr (Or.inl ⟨x, rfl, by omega, rfl⟩)))), rfl⟩
  | ldMemVx x =>
    simp only [exec, execLdMemVx]
    by_cases h : s.i.toNat + x.toNat ≤ 0xFFF
    · rw [(State.inBounds_effAddr s x.toNat).2 h]
      refine Or.inr ⟨?_, _, rfl, by simp, ?_, by simp, by simp⟩
      · simp [execFault]; omega
      · rw [State.writeBytes_eq]; rfl
    · rw [(State.not_inBounds_effAddr s x.toNat).2 (by omega)]
      exact Or.inl ⟨_, Or.inr (Or.inr (Or.inr (Or.inr (Or.inr ⟨x, Or.inl rfl, by omega, rfl⟩)))), rfl⟩
  | ldVxMem x =>
    simp only [exec, execLdVxMem]
    by_cases h : s.i.toNat + x.toNat ≤ 0xFFF
    · rw [(State.inBounds_effAddr s x.toNat).2 h, if_pos rfl]
      refine Or.inr ⟨?_, _, rfl, ?_, ?_, ?_, Or.inl ?_⟩
      · simp [execFault]; omega
      all_goals rw [State.loadRegs_eq]; rfl
    · rw [(State.not_inBounds_effAddr s x.toNat).2 (by omega)]
      exact Or.inl ⟨_, Or.inr (Or.inr (Or.inr (Or.inr (Or.inr ⟨x, Or.inr rfl, by omega, rfl⟩)))), rfl⟩
  | rnd x kk =>
    refine Or.inr ⟨by simp [execFault], _, rfl, ?_, ?_, ?_, Or.inl ?_⟩ <;> rw [State.consumeRand_eq] <;> rfl
  | ldVxK x => exact Or.inr ⟨by simp [execFault], _, rfl, rfl, rfl, rfl, Or.inr ⟨x, rfl, rfl, rfl⟩⟩
  | seImm | sneImm | seReg | sneReg | skp | sknp =>
    exact Or.inr ⟨by simp [execFault], _, rfl, (skip _).1, (skip _).2.1, (skip _).2.2.1, Or.inl (skip _).2.2.2⟩
  | _ => exact Or.inr ⟨by simp [execFault], _, rfl, rfl, rfl, rfl, Or.inl rfl⟩

/-- Right after reset every byte reads as the reset contents. -/
theorem resetWith_readByte (p : Config.Params) (n a : Nat) : (State.resetWith p n).readByte a = unlistedByte p a := rfl

/-- The font as memory holds it, by digit and row (20_memory.md R53). -/
theorem fontTable_getD {d r : Nat} (hd : d < 16) (hr : r < 5) : fontTable.getD (5 * d + r) 0x00#8 = fontByte d r := by
  have h : ∀ d < 16, ∀ r < 5, fontTable.getD (5 * d + r) 0x00#8 = fontByte d r := by decide
  exact h d hd r hr

/-! ### The result of a STEP (40_cycle_engine.md R106, R108) -/

theorem stepResult_of_live {s t : State} (hs : step s = .next t) (ht : t.Live) : stepResult s = .ok s.redraws := by
  simp only [stepResult, hs]
  cases h : t.runState with
  | running => rfl
  | waitingForKey => rfl
  | halted => exact absurd h ht

theorem stepResult_of_halted {s t : State} {r : FaultRecord} (hs : step s = .next t) (ht : t.runState = .halted)
    (hr : t.fault = some r) : stepResult s = .error r := by
  simp only [stepResult, hs, ht, hr]

/-- The redraw bit of a STEP that executes `i`. -/
theorem State.redraws_of_executes {s : State} {i : Instr} (h : s.Executes i) : s.redraws = setsRedraw i := by
  obtain ⟨hr, w, hf, hd⟩ := h
  simp [State.redraws, hr, hf, hd]

end Sys2Proof.Machine
end

