-- ==== Sys2Proof/Laws/PerInstr.lean ====
section
/-! SUPPORT. Per instruction: its word, from the encoder, carries the fixed bits of its row of the opcode map
(30_encoding.md R74). -/

namespace Sys2Proof.Laws.RowMatch

/-- The word of `i` selects the row of `i`: `w and mask = match` (30_encoding.md R74). -/
def Statement (i : Instr) : Prop := encode i &&& rowMask i = rowMatch i

/-! ### Masking part by part -/

theorem append_and {a b : Nat} (x p : BitVec a) (y q : BitVec b) : (x ++ y) &&& (p ++ q) = (x &&& p) ++ (y &&& q) := by
  ext k hk
  simp only [BitVec.getElem_and, BitVec.getElem_append]
  split <;> rfl

theorem mask_addr (o : Nibble) (n : Addr) : (o ++ n : Word) &&& 0xF000#16 = o ++ 0#12 := by
  rw [show (0xF000#16 : Word) = 0xF#4 ++ 0#12 from rfl]
  exact (append_and o 0xF#4 n 0#12).trans (by rw [BitVec.and_zero, show (0xF#4) = BitVec.allOnes 4 from rfl, BitVec.and_allOnes])

theorem mask_byte (o x : Nibble) (kk m : Byte) :
    (o ++ x ++ kk : Word) &&& (0xF#4 ++ 0x0#4 ++ m : Word) = o ++ 0x0#4 ++ (kk &&& m) := by
  refine (append_and (o ++ x) (0xF#4 ++ 0x0#4) kk m).trans ?_
  rw [append_and o 0xF#4 x 0x0#4, BitVec.and_zero, show (0xF#4) = BitVec.allOnes 4 from rfl, BitVec.and_allOnes]

theorem mask_nibble (o x y n m : Nibble) :
    (o ++ x ++ y ++ n : Word) &&& (0xF#4 ++ 0x0#4 ++ 0x0#4 ++ m : Word) = o ++ 0x0#4 ++ 0x0#4 ++ (n &&& m) := by
  refine (append_and (o ++ x ++ y) (0xF#4 ++ 0x0#4 ++ 0x0#4) n m).trans ?_
  rw [append_and (o ++ x) (0xF#4 ++ 0x0#4) y 0x0#4, append_and o 0xF#4 x 0x0#4, BitVec.and_zero, BitVec.and_zero,
    show (0xF#4) = BitVec.allOnes 4 from rfl, BitVec.and_allOnes]

/-! ### One lemma per constructor -/

theorem sys (nnn : Addr) : Statement (.sys nnn) :=
  mask_addr 0x0#4 nnn

theorem cls : Statement (.cls) :=
  rfl

theorem ret : Statement (.ret) :=
  rfl

theorem jp (nnn : Addr) : Statement (.jp nnn) :=
  mask_addr 0x1#4 nnn

theorem call (nnn : Addr) : Statement (.call nnn) :=
  mask_addr 0x2#4 nnn

theorem seImm (x : Nibble) (kk : Byte) : Statement (.seImm x kk) :=
  (mask_byte 0x3#4 x kk 0x00#8).trans (by rw [BitVec.and_zero]; rfl)

theorem sneImm (x : Nibble) (kk : Byte) : Statement (.sneImm x kk) :=
  (mask_byte 0x4#4 x kk 0x00#8).trans (by rw [BitVec.and_zero]; rfl)

theorem seReg (x : Nibble) (y : Nibble) : Statement (.seReg x y) :=
  mask_nibble 0x5#4 x y 0x0#4 0x0#4

theorem ldImm (x : Nibble) (kk : Byte) : Statement (.ldImm x kk) :=
  (mask_byte 0x6#4 x kk 0x00#8).trans (by rw [BitVec.and_zero]; rfl)

theorem addImm (x : Nibble) (kk : Byte) : Statement (.addImm x kk) :=
  (mask_byte 0x7#4 x kk 0x00#8).trans (by rw [BitVec.and_zero]; rfl)

theorem ldReg (x : Nibble) (y : Nibble) : Statement (.ldReg x y) :=
  mask_nibble 0x8#4 x y 0x0#4 0xF#4

theorem orReg (x : Nibble) (y : Nibble) : Statement (.orReg x y) :=
  mask_nibble 0x8#4 x y 0x1#4 0xF#4

theorem andReg (x : Nibble) (y : Nibble) : Statement (.andReg x y) :=
  mask_nibble 0x8#4 x y 0x2#4 0xF#4

theorem xorReg (x : Nibble) (y : Nibble) : Statement (.xorReg x y) :=
  mask_nibble 0x8#4 x y 0x3#4 0xF#4

theorem addReg (x : Nibble) (y : Nibble) : Statement (.addReg x y) :=
  mask_nibble 0x8#4 x y 0x4#4 0xF#4

theorem sub (x : Nibble) (y : Nibble) : Statement (.sub x y) :=
  mask_nibble 0x8#4 x y 0x5#4 0xF#4

theorem shr (x : Nibble) (y : Nibble) : Statement (.shr x y) :=
  mask_nibble 0x8#4 x y 0x6#4 0xF#4

theorem subn (x : Nibble) (y : Nibble) : Statement (.subn x y) :=
  mask_nibble 0x8#4 x y 0x7#4 0xF#4

theorem shl (x : Nibble) (y : Nibble) : Statement (.shl x y) :=
  mask_nibble 0x8#4 x y 0xE#4 0xF#4

theorem sneReg (x : Nibble) (y : Nibble) : Statement (.sneReg x y) :=
  mask_nibble 0x9#4 x y 0x0#4 0x0#4

theorem ldI (nnn : Addr) : Statement (.ldI nnn) :=
  mask_addr 0xA#4 nnn

theorem jpV0 (nnn : Addr) : Statement (.jpV0 nnn) :=
  mask_addr 0xB#4 nnn

theorem rnd (x : Nibble) (kk : Byte) : Statement (.rnd x kk) :=
  (mask_byte 0xC#4 x kk 0x00#8).trans (by rw [BitVec.and_zero]; rfl)

theorem drw (x : Nibble) (y : Nibble) (n : Nibble) : Statement (.drw x y n) :=
  (mask_nibble 0xD#4 x y n 0x0#4).trans (by rw [BitVec.and_zero]; rfl)

theorem skp (x : Nibble) : Statement (.skp x) :=
  mask_byte 0xE#4 x 0x9E#8 0xFF#8

theorem sknp (x : Nibble) : Statement (.sknp x) :=
  mask_byte 0xE#4 x 0xA1#8 0xFF#8

theorem ldVxDt (x : Nibble) : Statement (.ldVxDt x) :=
  mask_byte 0xF#4 x 0x07#8 0xFF#8

theorem ldVxK (x : Nibble) : Statement (.ldVxK x) :=
  mask_byte 0xF#4 x 0x0A#8 0xFF#8

theorem ldDtVx (x : Nibble) : Statement (.ldDtVx x) :=
  mask_byte 0xF#4 x 0x15#8 0xFF#8

theorem ldStVx (x : Nibble) : Statement (.ldStVx x) :=
  mask_byte 0xF#4 x 0x18#8 0xFF#8

theorem addIVx (x : Nibble) : Statement (.addIVx x) :=
  mask_byte 0xF#4 x 0x1E#8 0xFF#8

theorem ldFVx (x : Nibble) : Statement (.ldFVx x) :=
  mask_byte 0xF#4 x 0x29#8 0xFF#8

theorem ldBVx (x : Nibble) : Statement (.ldBVx x) :=
  mask_byte 0xF#4 x 0x33#8 0xFF#8

theorem ldMemVx (x : Nibble) : Statement (.ldMemVx x) :=
  mask_byte 0xF#4 x 0x55#8 0xFF#8

theorem ldVxMem (x : Nibble) : Statement (.ldVxMem x) :=
  mask_byte 0xF#4 x 0x65#8 0xFF#8

end Sys2Proof.Laws.RowMatch
end

