-- ==== Sys2Proof/Tests/Slice0.lean ====
section
/-! SUPPORT. The model's own tests. Expected results are the vectors T1 to T223 of spec/95_test_vectors.md, or worked by hand from
the rule named. Then, for every statement with hypotheses, named witnesses that meet them. -/

namespace Sys2Proof.Tests

open Sys2Proof Sys2Proof.Machine

/-! ### Well-formedness (30_encoding.md R77) -/

theorem test_wf_sys_is_not_cls : (Instr.sys 0x0E0#12).wf = false := by decide

theorem test_wf_sys_is_not_ret : (Instr.sys 0x0EE#12).wf = false := by decide

theorem test_wf_accepts_the_neighbours :
    (Instr.sys 0x0E1#12).wf = true ∧ (Instr.sys 0x000#12).wf = true ∧ (Instr.sys 0xFFF#12).wf = true ∧
      (Instr.drw 0x0#4 0x0#4 0x0#4).wf = true := by decide

/-! ### Decoding: every constructor by a word of T20, and the words of T21 -/

theorem test_decode_op0 : [0x0000#16, 0x00E0#16, 0x00EE#16, 0x00E1#16, 0x00FD#16, 0x0FFF#16].map decodeWord =
    [.op (.sys 0x000#12), .op .cls, .op .ret, .op (.sys 0x0E1#12), .op (.sys 0x0FD#12), .op (.sys 0xFFF#12)] := by
  decide

theorem test_decode_jumps_and_skips :
    [0x1000#16, 0x2FFF#16, 0x3A42#16, 0x4F00#16, 0x5120#16, 0x5121#16, 0x5FFF#16, 0x9AB0#16, 0x9AB7#16, 0xBFFF#16].map
        decodeWord =
      [.op (.jp 0x000#12), .op (.call 0xFFF#12), .op (.seImm 0xA#4 0x42#8), .op (.sneImm 0xF#4 0x00#8),
       .op (.seReg 0x1#4 0x2#4), .op (.seReg 0x1#4 0x2#4), .op (.seReg 0xF#4 0xF#4), .op (.sneReg 0xA#4 0xB#4),
       .op (.sneReg 0xA#4 0xB#4), .op (.jpV0 0xFFF#12)] := by
  decide

theorem test_decode_alu :
    [0x6A03#16, 0x70FF#16, 0x8120#16, 0x8121#16, 0x8122#16, 0x8123#16, 0x8124#16, 0x8125#16, 0x8126#16, 0x8127#16,
        0x812E#16].map decodeWord =
      [.op (.ldImm 0xA#4 0x03#8), .op (.addImm 0x0#4 0xFF#8), .op (.ldReg 0x1#4 0x2#4), .op (.orReg 0x1#4 0x2#4),
       .op (.andReg 0x1#4 0x2#4), .op (.xorReg 0x1#4 0x2#4), .op (.addReg 0x1#4 0x2#4), .op (.sub 0x1#4 0x2#4),
       .op (.shr 0x1#4 0x2#4), .op (.subn 0x1#4 0x2#4), .op (.shl 0x1#4 0x2#4)] := by
  decide

theorem test_decode_index_draw_random :
    [0xA123#16, 0xC0FF#16, 0xD123#16, 0xD000#16, 0xF11E#16, 0xF429#16, 0xF033#16, 0xF255#16, 0xFF65#16].map decodeWord =
      [.op (.ldI 0x123#12), .op (.rnd 0x0#4 0xFF#8), .op (.drw 0x1#4 0x2#4 0x3#4), .op (.drw 0x0#4 0x0#4 0x0#4),
       .op (.addIVx 0x1#4), .op (.ldFVx 0x4#4), .op (.ldBVx 0x0#4), .op (.ldMemVx 0x2#4), .op (.ldVxMem 0xF#4)] := by
  decide

theorem test_decode_keys_and_timers :
    [0xE09E#16, 0xEFA1#16, 0xF007#16, 0xF30A#16, 0xFA15#16, 0xF218#16].map decodeWord =
      [.op (.skp 0x0#4), .op (.sknp 0xF#4), .op (.ldVxDt 0x0#4), .op (.ldVxK 0x3#4), .op (.ldDtVx 0xA#4),
       .op (.ldStVx 0x2#4)] := by
  decide

theorem test_decode_unknown_op8 :
    [0x8128#16, 0x8129#16, 0x812A#16, 0x812B#16, 0x812C#16, 0x812D#16, 0x812F#16, 0x8008#16, 0x8FFF#16].map decodeWord = List.replicate 9 .unknownOpcode := by decide

theorem test_decode_unknown_op14 :
    [0xE000#16, 0xE09F#16, 0xE19D#16, 0xE0A0#16, 0xE0A2#16, 0xEFFF#16].map decodeWord = List.replicate 6 .unknownOpcode := by decide

theorem test_decode_unknown_op15 :
    [0xF000#16, 0xF008#16, 0xF00B#16, 0xF016#16, 0xF01D#16, 0xF030#16, 0xF075#16, 0xF085#16, 0xF034#16, 0xF056#16,
      0xF064#16, 0xF066#16, 0xFFFF#16].map decodeWord = List.replicate 13 .unknownOpcode := by decide

/-- R54: the high byte first; the rest of the bytes is handed on. -/
theorem test_decode_bytes :
    decode [0x81#8, 0x24#8, 0xFF#8] = .op (.addReg 0x1#4 0x2#4) [0xFF#8] ∧ decodeTableWord 16 0x8124 = some (.addReg 0x1#4 0x2#4) ∧
      decodeTableWord 16 0x8128 = none := by decide

theorem test_encode : [Instr.cls, .ret, .sys 0x234#12, .drw 0x1#4 0x2#4 0x3#4, .shl 0x1#4 0x2#4, .ldVxMem 0xF#4].map encode =
    [0x00E0#16, 0x00EE#16, 0x0234#16, 0xD123#16, 0x812E#16, 0xFF65#16] := by decide

/-! ### One STEP per vector. `at0 s w`: the word `w` stands where `s` fetches. -/

/-- `s` with the word `w` at its `pc`. -/
abbrev at0 (s : State) (w : Nat) : State := s.withFetchWord 16 w

/-- The state after the STEP that runs `w` in `s`. -/
abbrev run (s : State) (w : Nat) : State := (at0 s w).afterStep

/-- Reset with one register set. -/
abbrev r1 (x : Nibble) (a : Byte) : State := State.reset.setV x a

/-- Reset with two registers set. -/
abbrev r2 (x : Nibble) (a : Byte) (y : Nibble) (b : Byte) : State := (r1 x a).setV y b

/-- T30, T31. -/
theorem test_jp : (run (State.reset.jump 0x20A#16) 0x1204).pc = 0x204#16 ∧ (run State.reset 0x1200).pc = 0x200#16 := by decide

/-- T32, T201: the jump to 0xFFF, then the fetch fault. -/
theorem test_fetch_fault :
    (run State.reset 0x1FFF).afterStep.fault = some { kind := .memoryOutOfBounds, pc := some 0xFFF#16, word := none } := by
  decide

/-- T33: an odd `pc` is legal. -/
theorem test_odd_pc :
    ((State.reset.writeBytes 0x203 [0x6B#8, 0x2A#8]).jump 0x203#16).afterStep.getV 0xB#4 = 0x2A#8 := by decide

/-- T34. -/
theorem test_call : (run (State.reset.jump 0x204#16) 0x2300).stack[0] = 0x206#16 ∧
    (run (State.reset.jump 0x204#16) 0x2300).sp = 1 ∧ (run (State.reset.jump 0x204#16) 0x2300).pc = 0x300#16 := by decide

/-- T36. -/
theorem test_call_overflow : (run { State.reset with sp := 16 } 0x2300).fault =
    some { kind := .stackOverflow, pc := some 0x200#16, word := some 0x2300#16 } := by decide

/-- T38. -/
theorem test_ret : (run { State.reset with sp := 1, stack := State.reset.stack.set 0 0x206#16 } 0x00EE).pc = 0x206#16 ∧
    (run { State.reset with sp := 1, stack := State.reset.stack.set 0 0x206#16 } 0x00EE).sp = 0 := by decide

/-- T39. -/
theorem test_ret_underflow : (run State.reset 0x00EE).fault =
    some { kind := .stackUnderflow, pc := some 0x200#16, word := some 0x00EE#16 } := by decide

/-- T40, T41. -/
theorem test_seImm : (run (State.reset.jump 0x208#16) 0x3300).pc = 0x20C#16 ∧
    (run ((r1 0x3#4 0x01#8).jump 0x208#16) 0x3300).pc = 0x20A#16 := by decide

/-- T42, T43. -/
theorem test_sneImm : (run (r1 0x0#4 0x05#8) 0x4006).pc = 0x204#16 ∧ (run (r1 0x0#4 0x05#8) 0x4005).pc = 0x202#16 := by decide

/-- T45, T46. -/
theorem test_seReg : (run (r2 0x1#4 0x7F#8 0x2#4 0x7F#8) 0x512B).pc = 0x204#16 ∧
    (run (r2 0x1#4 0x01#8 0x2#4 0x02#8) 0x5120).pc = 0x202#16 := by decide

/-- T48, T49. -/
theorem test_sneReg : (run (r2 0x1#4 0x01#8 0x2#4 0x02#8) 0x9120).pc = 0x204#16 ∧ (run State.reset 0x9440).pc = 0x202#16 := by decide

/-- T52, T53. -/
theorem test_jpV0 : (run (r1 0x0#4 0xFF#8) 0xBFFF).pc = 0x10FE#16 ∧ (run (r1 0x0#4 0xFF#8) 0xB300).pc = 0x3FF#16 := by decide

/-- Reset with SYS_MODE = ignore. -/
abbrev ignoring : State := { State.reset with params := { State.reset.params with sysMode := .ignore } }

/-- T54, T55. -/
theorem test_sys : (run State.reset 0x0234).fault =
      some { kind := .unknownOpcode, pc := some 0x200#16, word := some 0x0234#16 } ∧
    (run ignoring 0x0234).pc = 0x202#16 ∧ (run ignoring 0x0234).fault = none := by decide

/-- T61. -/
theorem test_ldImm : (run (r1 0xF#4 0x01#8) 0x6F55).getV 0xF#4 = 0x55#8 := by decide

/-- T62. -/
theorem test_addImm : (run (r1 0x0#4 0x05#8) 0x70FF).getV 0x0#4 = 0x04#8 ∧ (run (r1 0x0#4 0x05#8) 0x70FF).getV 0xF#4 = 0x00#8 := by
  decide

/-- T65. -/
theorem test_ldReg : (run (r1 0x2#4 0x9C#8) 0x8120).getV 0x1#4 = 0x9C#8 := by decide

/-- T66. -/
theorem test_or : (run (r2 0x1#4 0xF0#8 0x2#4 0x0F#8) 0x8121).getV 0x1#4 = 0xFF#8 := by decide

/-- T67. -/
theorem test_and : (run (r2 0x1#4 0xF0#8 0x2#4 0x3C#8) 0x8122).getV 0x1#4 = 0x30#8 := by decide

/-- T68, T69. -/
theorem test_xor : (run (r2 0x1#4 0xF0#8 0x2#4 0x3C#8) 0x8123).getV 0x1#4 = 0xCC#8 ∧
    (run (r1 0x1#4 0xA5#8) 0x8113).getV 0x1#4 = 0x00#8 := by decide

/-- T70. -/
theorem test_add : (run (r2 0x1#4 0xFF#8 0x2#4 0x01#8) 0x8124).getV 0x1#4 = 0x00#8 ∧
    (run (r2 0x1#4 0xFF#8 0x2#4 0x01#8) 0x8124).getV 0xF#4 = 0x01#8 := by decide

/-- T74: VF is the destination, and the flag wins. -/
theorem test_add_into_vf : (run (r2 0xF#4 0x01#8 0x1#4 0x02#8) 0x8F14).getV 0xF#4 = 0x00#8 := by decide

/-- T76. -/
theorem test_sub : (run (r2 0x1#4 0x05#8 0x2#4 0x0A#8) 0x8125).getV 0x1#4 = 0xFB#8 ∧
    (run (r2 0x1#4 0x05#8 0x2#4 0x0A#8) 0x8125).getV 0xF#4 = 0x00#8 := by decide

/-- T78: equal operands, no borrow. -/
theorem test_sub_equal : (run (r1 0x1#4 0x33#8) 0x8115).getV 0xF#4 = 0x01#8 := by decide

/-- T81. -/
theorem test_shr : (run (r2 0x3#4 0x80#8 0x7#4 0xFF#8) 0x8376).getV 0x3#4 = 0x40#8 ∧
    (run (r2 0x3#4 0x80#8 0x7#4 0xFF#8) 0x8376).getV 0x7#4 = 0xFF#8 := by decide

/-- T82: VF is the destination, and the flag wins. -/
theorem test_shr_of_vf : (run (r1 0xF#4 0x03#8) 0x8F06).getV 0xF#4 = 0x01#8 := by decide

/-- T84. -/
theorem test_subn : (run (r2 0x1#4 0x0A#8 0x2#4 0x05#8) 0x8127).getV 0x1#4 = 0xFB#8 ∧
    (run (r2 0x1#4 0x0A#8 0x2#4 0x05#8) 0x8127).getV 0xF#4 = 0x00#8 := by decide

/-- T87, T88. -/
theorem test_shl : (run (r1 0x3#4 0x81#8) 0x830E).getV 0x3#4 = 0x02#8 ∧ (run (r1 0x3#4 0x81#8) 0x830E).getV 0xF#4 = 0x01#8 ∧
    (run (r1 0x3#4 0x40#8) 0x830E).getV 0xF#4 = 0x00#8 := by decide

/-- T101. -/
theorem test_ldI : (run (State.reset.setI 0xFFFF#16) 0xA000).i = 0x0000#16 := by decide

/-- T102, T103. -/
theorem test_addI : (run ((r1 0x1#4 0x05#8).setI 0x0FFE#16) 0xF11E).i = 0x1003#16 ∧
    (run ((r1 0x0#4 0x01#8).setI 0xFFFF#16) 0xF01E).i = 0x0000#16 := by decide

/-- T105: the low nibble alone. -/
theorem test_ldF : (run (r1 0x4#4 0x1A#8) 0xF429).i = 0x0082#16 := by decide

/-- T107. -/
theorem test_ldB : [0x300, 0x301, 0x302].map (run ((r1 0x0#4 0xFE#8).setI 0x300#16) 0xF033).readByte = [0x02#8, 0x05#8, 0x04#8] := by
  decide

/-- T112. -/
theorem test_ldB_out_of_range : (run ((r1 0x5#4 0x7B#8).setI 0xFFE#16) 0xF533).fault =
      some { kind := .memoryOutOfBounds, pc := some 0x200#16, word := some 0xF533#16 } ∧
    (run ((r1 0x5#4 0x7B#8).setI 0xFFE#16) 0xF533).readByte 0xFFE = 0x00#8 := by decide

/-- T113. -/
theorem test_ldMem : [0x400, 0x401, 0x402, 0x403].map
      (run (((r2 0x0#4 0x11#8 0x1#4 0x22#8).setV 0x2#4 0x33#8).setI 0x400#16) 0xF255).readByte =
    [0x11#8, 0x22#8, 0x33#8, 0x00#8] := by decide

/-- T116. -/
theorem test_ldMem_out_of_range : (run (State.reset.setI 0xFF1#16) 0xFF55).fault =
    some { kind := .memoryOutOfBounds, pc := some 0x200#16, word := some 0xFF55#16 } := by decide

/-- T119: glyph 0 of the font. -/
theorem test_ldVxMem : [0x0#4, 0x1#4, 0x2#4, 0x3#4, 0x4#4, 0x5#4].map (run (State.reset.setI 0x050#16) 0xF465).getV =
    [0xF0#8, 0x90#8, 0x90#8, 0x90#8, 0xF0#8, 0x00#8] := by decide

/-- T118. -/
theorem test_ldVxMem_out_of_range : (run (State.reset.setI 0x1000#16) 0xF065).fault =
    some { kind := .memoryOutOfBounds, pc := some 0x200#16, word := some 0xF065#16 } := by decide

/-- T130. -/
theorem test_ldVxDt : (run (State.reset.setDt 0x1E#8) 0xF407).getV 0x4#4 = 0x1E#8 := by decide

/-- T131. -/
theorem test_ldDtVx : (run (r1 0xA#4 0x03#8) 0xFA15).dt = 0x03#8 := by decide

/-- T132. -/
theorem test_ldStVx : (run (r1 0x2#4 0x10#8) 0xF218).st = 0x10#8 ∧ (run (r1 0x2#4 0x10#8) 0xF218).toneActive = true := by decide

/-- T134, T135. -/
theorem test_tick : ((State.reset.setDt 0x03#8).setSt 0x01#8).tick.dt = 0x02#8 ∧
    ((State.reset.setDt 0x03#8).setSt 0x01#8).tick.st = 0x00#8 ∧ State.reset.tick.dt = 0x00#8 := by decide

/-- T150. -/
theorem test_cls : (run (State.reset.setFb (Vector.replicate 32 0x8000000000000001#64)) 0x00E0).fb = Vector.replicate 32 0#64 ∧
    stepResult (at0 State.reset 0x00E0) = .ok true := by decide

/-- The start of T153: two sprite bytes at 0x20E, `V0 = 62`, `V1 = 31`. -/
abbrev corner : State := ((r2 0x0#4 0x3E#8 0x1#4 0x1F#8).setI 0x20E#16).writeBytes 0x20E [0xC0#8, 0x81#8]

/-- T153: pixels (62,31) (63,31) (62,0) (5,0); bit x of a row is the pixel in column x. -/
theorem test_drw_wraps : (run corner 0xD012).fb[31] = 0xC000000000000000#64 ∧ (run corner 0xD012).fb[0] = 0x4000000000000020#64 ∧
    (run corner 0xD012).getV 0xF#4 = 0x00#8 := by decide

/-- T157. -/
theorem test_drw_collides :
    (run (((State.reset.setI 0x300#16).writeBytes 0x300 [0xC0#8]).setFb (State.reset.fb.set 0 1#64)) 0xD011).fb[0] = 2#64 ∧
    (run (((State.reset.setI 0x300#16).writeBytes 0x300 [0xC0#8]).setFb (State.reset.fb.set 0 1#64)) 0xD011).getV 0xF#4 =
      0x01#8 := by decide

/-- T170, T173. -/
theorem test_rnd : ((at0 State.reset 0xC50F).afterStepRand 0xA7#8).getV 0x5#4 = 0x07#8 ∧
    ((at0 State.reset 0xCF0F).afterStepRand 0xFF#8).getV 0xF#4 = 0x0F#8 := by decide

/-- T184, T181. -/
theorem test_skp : (run ((r1 0x1#4 0x17#8).setKey 0x7#4 true) 0xE19E).pc = 0x204#16 ∧
    (run (r1 0x1#4 0x07#8) 0xE19E).pc = 0x202#16 := by decide

/-- T182, T183. -/
theorem test_sknp : (run ((r1 0x1#4 0x07#8).setKey 0x7#4 true) 0xE1A1).pc = 0x202#16 ∧
    (run (r1 0x1#4 0x07#8) 0xE1A1).pc = 0x204#16 := by decide

/-- The state after T185. -/
abbrev waiting : State := run State.reset 0xF30A

/-- T185. -/
theorem test_ldVxK : waiting.runState = .waitingForKey ∧ waiting.waitReg = 0x3#4 ∧ waiting.pc = 0x202#16 := by decide

/-- T188: of keys 2 and 9 the lowest is taken. -/
theorem test_wait_lowest_key : ((waiting.setKey 0x2#4 true).setKey 0x9#4 true).afterStep.getV 0x3#4 = 0x02#8 := by decide

/-- The state after T202. -/
abbrev halted : State := run State.reset 0x8128

/-- T202, T203. -/
theorem test_halted : halted.fault = some { kind := .unknownOpcode, pc := some 0x200#16, word := some 0x8128#16 } ∧
    step halted = .fault (.alreadyHalted halted.fault) ∧ faultCode halted.fault = 1 := ⟨by decide, rfl, by decide⟩

/-- T222: an image of odd length. -/
theorem test_load_odd :
    (handle (.load [0x6A#8]) (Session.start Config.Params.default)).1.state.afterStep.getV 0xA#4 = 0x00#8 ∧
    (handle (.load [0x6A#8]) (Session.start Config.Params.default)).1.state.afterStep.pc = 0x202#16 := by decide

/-- A short run of events: T221, then TICK, KEY and a second LOAD, which has no meaning. -/
theorem test_events :
    (runEvents [.load [0x6A#8, 0x03#8], .step 0x55#8, .tick, .key 0x1#4 true, .load []]
      (Session.start Config.Params.default)).2 =
    [.loaded, .ok false, .noResult, .noResult, .refused .loadNotAfterReset] := by decide

/-! ### Witnesses: for every statement with hypotheses, a state and operands that meet them, each clause at a boundary -/

/-- The STEP at `at0 State.reset w` executes the instruction `w` decodes to. -/
theorem executes_at0 {i : Instr} (w : Nat) (hr : (at0 State.reset w).runState = .running)
    (hf : (at0 State.reset w).fetch = some (tableWord 16 w)) (hd : decodeWord (tableWord 16 w) = .op i) :
    (at0 State.reset w).Executes i := ⟨hr, _, hf, hd⟩

/-- EncodeThenDecodeGivesTheInstruction: both ends of the SYS field, and every field at its greatest. -/
theorem witness_wf : (Instr.sys 0x000#12).wf = true ∧ (Instr.sys 0xFFF#12).wf = true ∧
    (Instr.drw 0xF#4 0xF#4 0xF#4).wf = true := by decide

/-- DecodeThenEncodeGivesTheWord: a word whose low nibble is ignored, and one whose low nibble is not. -/
theorem witness_decoded : decodeWord 0x5121#16 = .op (.seReg 0x1#4 0x2#4) ∧ decodeWord 0x9ABF#16 = .op (.sneReg 0xA#4 0xB#4) ∧
    decodeWord 0x8124#16 = .op (.addReg 0x1#4 0x2#4) := by decide

/-- StepRunsTheDecodedInstruction, at the highest `pc` that fetches (T200). -/
theorem witness_step_runs : (at0 (State.reset.jump 0xFFE#16) 0x1200).runState = .running ∧
    (at0 (State.reset.jump 0xFFE#16) 0x1200).pc.toNat = 0xFFE ∧
    decodeWord ((at0 (State.reset.jump 0xFFE#16) 0x1200).readByte 0xFFE ++
      (at0 (State.reset.jump 0xFFE#16) 0x1200).readByte 0xFFF) = .op (.jp 0x200#12) := by decide

/-- FetchReadsTwoBytesOrHalts: both clauses at the border. -/
theorem witness_fetch : (State.reset.jump 0xFFE#16).pc.toNat ≤ 0xFFE ∧ (State.reset.jump 0xFFF#16).runState = .running ∧
    0xFFF ≤ (State.reset.jump 0xFFF#16).pc.toNat := by decide

/-- UnknownOpcodeHaltsAndIsNamed: both arms. -/
theorem witness_unknown : (at0 State.reset 0x8128).runState = .running ∧ (at0 State.reset 0x8128).fetch = some 0x8128#16 ∧
    decodeWord 0x8128#16 = .unknownOpcode ∧ (at0 State.reset 0x8127).fetch = some 0x8127#16 ∧
    decodeWord 0x8127#16 = .op (.subn 0x1#4 0x2#4) := by decide

/-- HaltedRejectsStepsUntilReset: a HALTED state, and the event that leaves it. -/
theorem witness_halted : halted.runState = .halted ∧
    (handle .reset { state := halted, loadable := false }).1.state.runState ≠ .halted := by decide

/-- WaitingStepPollsTheKeys: no key down. -/
theorem witness_waiting_no_key : waiting.runState = .waitingForKey ∧ ∀ k : Nibble, waiting.keyDown k = false :=
  ⟨by decide, fun k => by
    have h : ∀ n : Fin 16, waiting.keys[n] = false := by decide
    exact h ⟨k.toNat, k.isLt⟩⟩

/-- WaitingStepPollsTheKeys: key 0 down (no lower key exists), and keys 2 and 9 down. -/
theorem witness_waiting_key :
    ((waiting.setKey 0x0#4 true).runState = .waitingForKey ∧ (waiting.setKey 0x0#4 true).keyDown 0x0#4 = true ∧
      ∀ j : Nibble, j.toNat < 0 → (waiting.setKey 0x0#4 true).keyDown j = false) ∧
    (((waiting.setKey 0x2#4 true).setKey 0x9#4 true).keyDown 0x2#4 = true ∧
      ∀ j : Nibble, j.toNat < 2 → ((waiting.setKey 0x2#4 true).setKey 0x9#4 true).keyDown j = false) := by
  have k : ∀ n : Fin 16, n.val < 2 → ((waiting.setKey 0x2#4 true).setKey 0x9#4 true).keys[n] = false := by decide
  exact ⟨⟨by decide, by decide, fun j h => absurd h (Nat.not_lt_zero _)⟩, by decide, fun j h => k ⟨j.toNat, j.isLt⟩ h⟩

/-- FaultingStepIsPrecise. -/
theorem witness_faulting_step : (at0 State.reset 0x8128).runState ≠ .halted ∧ step (at0 State.reset 0x8128) = .next halted ∧
    halted.runState = .halted := ⟨by decide, rfl, by decide⟩

/-- StepFaultsExactlyByTheFaultTable: the fetch row at 0xFFF, the unknown word, SYS, CALL, RET. -/
theorem witness_fault_rows :
    FaultRow (State.reset.jump 0xFFF#16) .memoryOutOfBounds none ∧
    FaultRow (at0 State.reset 0x8128) .unknownOpcode (some 0x8128#16) ∧
    FaultRow (at0 State.reset 0x0234) .unknownOpcode (some 0x0234#16) ∧
    FaultRow (at0 { State.reset with sp := 16 } 0x2300) .stackOverflow (some 0x2300#16) ∧
    FaultRow (at0 State.reset 0x00EE) .stackUnderflow (some 0x00EE#16) :=
  ⟨.inl ⟨by decide, rfl, rfl⟩, .inr ⟨_, by decide, rfl, .inl ⟨by decide, rfl⟩⟩,
    .inr ⟨_, by decide, rfl, .inr (.inl ⟨0x234#12, by decide, by decide, rfl⟩)⟩,
    .inr ⟨_, by decide, rfl, .inr (.inr (.inl ⟨0x300#12, by decide, by decide, rfl⟩))⟩,
    .inr ⟨_, by decide, rfl, .inr (.inr (.inr (.inl ⟨by decide, by decide, rfl⟩)))⟩⟩

/-- The same, the rows with an address, each one byte past the end of memory. -/
theorem witness_fault_rows_memory :
    FaultRow (at0 (State.reset.setI 0xFFF#16) 0xD012) .memoryOutOfBounds (some 0xD012#16) ∧
    FaultRow (at0 (State.reset.setI 0xFFE#16) 0xF533) .memoryOutOfBounds (some 0xF533#16) ∧
    FaultRow (at0 (State.reset.setI 0xFF1#16) 0xFF55) .memoryOutOfBounds (some 0xFF55#16) ∧
    FaultRow (at0 (State.reset.setI 0x1000#16) 0xF065) .memoryOutOfBounds (some 0xF065#16) :=
  ⟨.inr ⟨_, by decide, rfl,
      .inr (.inr (.inr (.inr (.inl ⟨0x0#4, 0x1#4, 0x2#4, by decide, by decide, by decide, rfl⟩))))⟩,
    .inr ⟨_, by decide, rfl, .inr (.inr (.inr (.inr (.inr (.inl ⟨0x5#4, by decide, by decide, rfl⟩)))))⟩,
    .inr ⟨_, by decide, rfl, .inr (.inr (.inr (.inr (.inr (.inr ⟨0xF#4, .inl (by decide), by decide, rfl⟩)))))⟩,
    .inr ⟨_, by decide, rfl, .inr (.inr (.inr (.inr (.inr (.inr ⟨0x0#4, .inr (by decide), by decide, rfl⟩)))))⟩⟩

/-- StepFaultsExactlyByTheFaultTable, the other clause: a RUNNING state to which no row applies. -/
theorem witness_no_fault_row : (at0 State.reset 0x6A03).runState = .running ∧
    ¬∃ kind word, FaultRow (at0 State.reset 0x6A03) kind word := by
  have hf : (at0 State.reset 0x6A03).fetch = some 0x6A03#16 := by decide
  have hd : decodeWord 0x6A03#16 = .op (.ldImm 0xA#4 0x03#8) := by decide
  refine ⟨by decide, ?_⟩
  rintro ⟨kind, word, ⟨hp, -⟩ | ⟨w, hw, -, h⟩⟩
  · exact absurd hp (by decide)
  · rw [hf] at hw
    cases hw
    simp only [hd, Decoded.op.injEq] at h
    simp at h

/-- EveryInstructionAnswersANextState: a running and a waiting state go on. -/
theorem witness_live : State.reset.Live ∧ waiting.Live := by decide

/-- RedrawIsReportedByClsAndDrwAlone: a DRW that completes, and a waiting state. -/
theorem witness_redraw : (at0 State.reset 0xD011).runState = .running ∧ (at0 State.reset 0xD011).Executes (.drw 0x0#4 0x1#4 0x1#4) ∧
    step (at0 State.reset 0xD011) = .next (run State.reset 0xD011) ∧ (run State.reset 0xD011).Live ∧
    waiting.runState = .waitingForKey :=
  ⟨by decide, executes_at0 _ rfl (by decide) (by decide), rfl, by decide, by decide⟩

/-- The same, the error clause, once per stage: fetch (T201), decode (T202), execute (T39). -/
theorem witness_error_result :
    (stepResult (State.reset.jump 0xFFF#16) = .error { kind := .memoryOutOfBounds, pc := some 0xFFF#16, word := none } ∧
      (State.reset.jump 0xFFF#16).runState = .running ∧ (State.reset.jump 0xFFF#16).afterStep.runState = .halted) ∧
    (stepResult (at0 State.reset 0x8128) = .error { kind := .unknownOpcode, pc := some 0x200#16, word := some 0x8128#16 } ∧
      (at0 State.reset 0x8128).runState = .running ∧ halted.runState = .halted) ∧
    (stepResult (at0 State.reset 0x00EE) = .error { kind := .stackUnderflow, pc := some 0x200#16, word := some 0x00EE#16 } ∧
      (at0 State.reset 0x00EE).runState = .running ∧ (run State.reset 0x00EE).runState = .halted) := by decide

/-- StepWritesOnlyWhatTheStateTableLists: a STEP that changes a byte of memory, one each that changes `I`, the stack and `sp`. -/
theorem witness_writes :
    (run ((r1 0x0#4 0xAB#8).setI 0xFFF#16) 0xF055).readByte 0xFFF ≠ ((r1 0x0#4 0xAB#8).setI 0xFFF#16).readByte 0xFFF ∧
    (run State.reset 0xAFFF).i ≠ State.reset.i ∧ (run State.reset 0x2300).stack ≠ State.reset.stack ∧
    (run State.reset 0x2300).sp ≠ State.reset.sp ∧ (at0 State.reset 0x2300).Executes (.call 0x300#12) ∧
    step (at0 State.reset 0x2300) = .next (run State.reset 0x2300) :=
  ⟨by decide, by decide, by decide, by decide, executes_at0 _ rfl (by decide) (by decide), rfl⟩

/-- The same: one each that changes DT, ST, the framebuffer, the wait register and the random source's fields. -/
theorem witness_writes_devices :
    (run (r1 0xA#4 0xFF#8) 0xFA15).dt ≠ 0x00#8 ∧ (run (r1 0x2#4 0xFF#8) 0xF218).st ≠ 0x00#8 ∧
    (run corner 0xD012).fb ≠ corner.fb ∧ waiting.waitReg ≠ State.reset.waitReg ∧
    (run State.reset 0xC5FF).randDraws ≠ State.reset.randDraws := by decide

/-- The state `exec` answers for ADD V0, V0 at `V0 = 0xFF`, as R147 gives it. -/
abbrev doubled : State := (((r1 0x0#4 0xFF#8).setV 0x0#4 0xFE#8).setV 0xF#4 0x01#8).advance

/-- StepWritesOnlyWhatTheStateTableLists, the registers: the last register LD VF, [I] loads, the destination of a load, and VF as
DRW's flag. -/
theorem witness_writes_registers : (run (State.reset.setI 0x041#16) 0xFF65).getV 0xF#4 ≠ State.reset.getV 0xF#4 ∧
    (run State.reset 0x6A03).getV 0xA#4 ≠ State.reset.getV 0xA#4 ∧
    (run (r1 0xF#4 0x05#8) 0xD010).getV 0xF#4 ≠ (r1 0xF#4 0x05#8).getV 0xF#4 := by decide

/-- The same, `pc`, the run state and the record: a jump, a STEP that halts, LD Vx, K. -/
theorem witness_writes_engine : (run State.reset 0x1300).Live ∧ (run State.reset 0x1300).pc ≠ State.reset.pc + 2#16 ∧
    halted.runState = .halted ∧ halted.fault ≠ (at0 State.reset 0x8128).fault ∧ waiting.runState ≠ .running ∧
    (run State.reset 0x00EE).runState = .halted ∧ (run State.reset 0x00EE).fault ≠ State.reset.fault := by decide

/-- VfChangesOnlyAsFlagOrDestination: by the flag. -/
theorem witness_vf_changes :
    exec (.addReg 0x0#4 0x0#4) (r1 0x0#4 0xFF#8) = .next doubled ∧
    doubled.getV 0xF#4 ≠ (r1 0x0#4 0xFF#8).getV 0xF#4 := ⟨rfl, by decide⟩

/-- RunStateTransitionsAreTheListedOnes: RESET from HALTED, into the wait, out of it, a fault, and an image too long. -/
theorem witness_transitions :
    (handle .reset { state := halted, loadable := false }).1.state.runState ≠ halted.runState ∧
    (handle (.step 0x00#8) { state := at0 State.reset 0xF30A, loadable := false }).1.state.runState ≠ .running ∧
    (handle (.step 0x00#8) { state := waiting.setKey 0x7#4 true, loadable := false }).1.state.runState ≠ .waitingForKey ∧
    (handle (.step 0x00#8) { state := State.reset, loadable := false }).1.state.runState ≠ .running := by decide

/-- The same, the LOAD of 3585 bytes (T7); also the second clause of LoadPutsTheImageOrRejectsIt. -/
theorem witness_long_image : (Session.start Config.Params.default).loadable = true ∧
    3584 < (List.replicate 3585 0xFF#8).length ∧
    (handle (.load (List.replicate 3585 0xFF#8)) (Session.start Config.Params.default)).1.state.runState ≠ .running := by
  refine ⟨rfl, by rw [List.length_replicate]; decide, ?_⟩
  have h : Config.maxImage < (List.replicate 3585 0xFF#8).length := by rw [List.length_replicate]; decide
  have hl : (Session.start Config.Params.default).loadable = true := rfl
  rw [handle, Session.load, if_pos hl, if_pos h]
  decide

/-- LoadPutsTheImageOrRejectsIt, the other clauses: an image of 3584 bytes fits (T7), and a LOAD without RESET. -/
theorem witness_load : (Session.start Config.Params.default).loadable = true ∧ (List.replicate 3584 0xFF#8).length ≤ 3584 ∧
    (handle .tick (Session.start Config.Params.default)).1.loadable = false :=
  ⟨rfl, by rw [List.length_replicate], rfl⟩

/-- RandIsIgnoredUnlessRndExecutes: a STEP that executes LD, and one in HALTED. -/
theorem witness_no_rnd : (¬∃ x kk, (at0 State.reset 0x6A03).Executes (.rnd x kk)) ∧ ¬∃ x kk, halted.Executes (.rnd x kk) := by
  constructor
  · rintro ⟨x, kk, -, w, hf, hd⟩
    have h : (at0 State.reset 0x6A03).fetch = some 0x6A03#16 := by decide
    rw [h] at hf
    cases hf
    have h' : decodeWord 0x6A03#16 = .op (.ldImm 0xA#4 0x03#8) := by decide
    rw [h'] at hd
    cases hd
  · rintro ⟨x, kk, hr, -⟩
    exact absurd hr (by decide)

/-- SelfJumpChangesNothing (T31). -/
theorem witness_self_jump : (at0 State.reset 0x1200).Executes (.jp 0x200#12) ∧
    (at0 State.reset 0x1200).pc.toNat = (0x200#12).toNat :=
  ⟨executes_at0 _ rfl (by decide) (by decide), by decide⟩

/-- StepKeepsTheStateLegal: a legal state whose STEP completes, and one whose STEP faults. -/
theorem witness_inv : State.reset.Inv ∧ step State.reset = .next State.reset.afterStep ∧ (at0 State.reset 0xF055).Inv ∧
    step (at0 State.reset 0xF055) = .next (run State.reset 0xF055) := ⟨by decide, rfl, by decide, rfl⟩

/-- EveryEventKeepsTheStateLegal: a legal HALTED state, and the highest legal `pc` (T52). -/
theorem witness_inv_halted : halted.Inv ∧ waiting.Inv ∧ (run (r1 0x0#4 0xFF#8) 0xBFFF).Inv := by decide

/-- MemoryReadsTheByteLastWritten: both sides of the end of memory. -/
theorem witness_memory : State.reset.memRead 0x1000 = none ∧ State.reset.memRead 0xFFF = some 0x00#8 := by decide

/-- StoreIsSeenByTheNextFetch: the last byte of memory, and a program (P6) that overwrites what it runs next. -/
theorem witness_store_fetch : (State.reset.setI 0xFF0#16).i.toNat + (0xF#4).toNat ≤ 0xFFF ∧ (0xFFE#16).toNat ≤ 0xFFE ∧
    (State.reset.setI 0x208#16).i.toNat + (0x1#4).toNat ≤ 0xFFF ∧ (0x208#16).toNat ≤ 0xFFE := by decide

/-- ResetEventLeavesTheResetValues: the font stands again after a RESET, although the program had overwritten its first byte. -/
theorem witness_reset_font :
    ((State.reset.writeByte 0x050 0x12#8).readByte 0x050 = 0x12#8) ∧
    (handle .reset { state := State.reset.writeByte 0x050 0x12#8, loadable := false }).1.state.readByte 0x050 = 0xF0#8 := by decide

/-- ResetEventLeavesTheResetValues and FontStandsInMemoryAfterReset: the bytes at both borders of the font (T220). -/
theorem witness_font : [0x04F, 0x050, 0x051, 0x09E, 0x09F, 0x0A0].map State.reset.readByte =
    [0x00#8, 0xF0#8, 0x90#8, 0x80#8, 0x80#8, 0x00#8] := by decide

/-- WithFetchWordIsWhatTheNextStepRuns, at a `pc` that fetches; the statement's second state is one that does not. -/
theorem witness_fetch_word : decodeTableWord 16 0xD123 = some (.drw 0x1#4 0x2#4 0x3#4) ∧ State.reset.pc.toNat ≤ 0xFFE ∧
    (at0 (State.reset.jump 0xFFF#16) 0xD123).pc = 0x200#16 := by decide

/-- SysFollowsSysMode: both modes. -/
theorem witness_sys_modes : State.reset.params.sysMode = .halt ∧ ignoring.params.sysMode = .ignore := by decide

/-- RetPopsTheReturnAddress: the empty stack, the first and the last entry. -/
theorem witness_ret : State.reset.sp.val = 0 ∧ ({ State.reset with sp := 1 } : State).sp.val = (0 : Fin 16).val + 1 ∧
    ({ State.reset with sp := 16 } : State).sp.val = (15 : Fin 16).val + 1 := by decide

/-- CallPushesTheReturnAddress, CallThenRetComesBack: the full stack, and the last free entry. -/
theorem witness_call : ({ State.reset with sp := 16 } : State).sp.val = 16 ∧ ({ State.reset with sp := 15 } : State).sp.val < 16 := by
  decide

/-- BcdStoresThreeDigits: both sides of the border (T111, T112). -/
theorem witness_bcd : (State.reset.setI 0xFFD#16).i.toNat + 2 ≤ 0xFFF ∧ 0xFFF < (State.reset.setI 0xFFE#16).i.toNat + 2 := by decide

/-- BulkStoreWritesV0ToVx, BulkLoadReadsV0ToVx: both sides of the border (T115, T116), and a register at each end of V0..VX. -/
theorem witness_bulk : (State.reset.setI 0xFF0#16).i.toNat + (0xF#4).toNat ≤ 0xFFF ∧
    0xFFF < (State.reset.setI 0xFF1#16).i.toNat + (0xF#4).toNat ∧ (0x0#4).toNat ≤ (0xF#4).toNat ∧
    (0xFEF < (State.reset.setI 0xFF0#16).i.toNat ∧ (State.reset.setI 0xFF0#16).i.toNat + (0xE#4).toNat < 0xFFF) := by decide

/-- DrwTogglesTheCoveredPixels: no rows with `I` out of range (T158), the last byte of memory (T159), one byte past it (T160). -/
theorem witness_drw : (0x0#4 = 0x0#4 ∧ 0xFFF < (State.reset.setI 0xFFFF#16).i.toNat) ∧
    (State.reset.setI 0xFFF#16).i.toNat + (0x1#4).toNat - 1 ≤ 0xFFF ∧
    (0 < (0x2#4).toNat ∧ 0xFFF < (State.reset.setI 0xFFF#16).i.toNat + (0x2#4).toNat - 1) := by decide

/-- The same: the sprite of T153 covers the pixel (5, 0), by bit 0 of its second byte, and not the pixel (0, 0). -/
theorem witness_covers : SpriteCovers corner 0x0#4 0x1#4 0x2#4 0 5 ∧ ¬SpriteCovers corner 0x0#4 0x1#4 0x2#4 0 0 := by
  constructor
  · exact ⟨1, by decide, 7, by decide, by decide, by decide, by decide⟩
  · unfold SpriteCovers
    decide

/-- The state `exec` answers for the DRW of T153. -/
abbrev drawn : State :=
  match exec (.drw 0x0#4 0x1#4 0x2#4) corner with
  | .next t => t
  | .fault _ => corner
  | .refused _ => corner

/-- DrawingTwiceRestoresTheFramebuffer: T153, then again; neither coordinate register is VF, and the framebuffer is clear. -/
theorem witness_draw_twice : corner.i.toNat + (0x2#4).toNat - 1 ≤ 0xFFF ∧
    exec (.drw 0x0#4 0x1#4 0x2#4) corner = .next drawn ∧ drawn.getV 0x0#4 = corner.getV 0x0#4 ∧
    drawn.getV 0x1#4 = corner.getV 0x1#4 ∧ ∀ py px, pixel corner.fb py px = false := by
  refine ⟨by decide, rfl, by decide, by decide, fun py px => ?_⟩
  have h : corner.fb = Vector.replicate 32 0#64 := by decide
  rw [h]
  simp [pixel]

/-- RndMasksTheRandomByte. -/
theorem witness_rnd : (at0 State.reset 0xC50F).Executes (.rnd 0x5#4 0x0F#8) := executes_at0 _ rfl (by decide) (by decide)

/-- KeySkips: the upper nibble of `V[X]` is ignored (T184). -/
theorem witness_key_code : (0x7#4).toNat = ((r1 0x1#4 0x17#8).getV 0x1#4).toNat % 16 := by decide

end Sys2Proof.Tests
end

section
/-! SUPPORT and PROOFS. What an executed instruction writes (10_state.md R20, the column "written by"): one inversion lemma for
`exec`, one lemma per element of the state, and from them O15. -/

namespace Sys2Proof.Machine

/-! ### The footprint of an instruction -/

/-- What executing `i` at `s` can leave: the state after a fault (40_cycle_engine.md R107), or `s` with exactly the elements the
family of `i` writes (10_state.md R20), whatever the values written. -/
inductive ExecEffect (s : State) : Instr → State → Prop where
  | fault (i : Instr) (kind : FaultKind) (word : Option Word) : ExecEffect s i (s.raise kind word)
  | regs {i : Instr} (v : Vector Byte 16) (hv : ∀ r, ({ s with v := v } : State).getV r ≠ s.getV r → WritesV i r) :
      ExecEffect s i { s with v := v, pc := s.pc + 2#16 }
  | goto {i : Instr} (a : Word) (hi : SetsPc i) : ExecEffect s i { s with pc := a }
  | ret (sp : Fin 17) (a : Word) : ExecEffect s .ret { s with sp := sp, pc := a }
  | call (nnn : Addr) (stack : Vector Word 16) (sp : Fin 17) (a : Word) :
      ExecEffect s (.call nnn) { s with stack := stack, sp := sp, pc := a }
  | index {i : Instr} (a : Word) (hi : (∃ nnn, i = .ldI nnn) ∨ ∃ x, i = .addIVx x ∨ i = .ldFVx x) :
      ExecEffect s i { s with i := a, pc := s.pc + 2#16 }
  | store {i : Instr} (mem : List Host.Cell) (hi : ∃ x, i = .ldBVx x ∨ i = .ldMemVx x) :
      ExecEffect s i { s with mem := mem, pc := s.pc + 2#16 }
  | rnd (x : Nibble) (kk b : Byte) (ins : List Byte) (draws : Nat) :
      ExecEffect s (.rnd x kk) { s.setV x b with randInputs := ins, randDraws := draws, pc := s.pc + 2#16 }
  | clear (fb : Framebuffer) : ExecEffect s .cls { s with fb := fb, pc := s.pc + 2#16 }
  | draw (x y n : Nibble) (fb : Framebuffer) (flag : Bool) :
      ExecEffect s (.drw x y n) { s.setFlag flag with fb := fb, pc := s.pc + 2#16 }
  | delay (x : Nibble) (b : Byte) : ExecEffect s (.ldDtVx x) { s with dt := b, pc := s.pc + 2#16 }
  | sound (x : Nibble) (b : Byte) : ExecEffect s (.ldStVx x) { s with st := b, pc := s.pc + 2#16 }
  | wait (x : Nibble) :
      ExecEffect s (.ldVxK x) { s with waitReg := x, runState := .waitingForKey, pc := s.pc + 2#16 }

section
variable {i : Instr} {s t : State}

theorem State.writesV_of_setV {x r : Nibble} {b : Byte} (hx : WritesV i x) (h : (s.setV x b).getV r ≠ s.getV r) :
    WritesV i r := by
  rw [State.setV_getV] at h
  split at h
  · next hr => exact hr ▸ hx
  · exact absurd rfl h

theorem State.writesV_of_setFlag {r : Nibble} {flag : Bool} (hf : WritesV i 0xF#4)
    (h : (s.setFlag flag).getV r ≠ s.getV r) : WritesV i r :=
  State.writesV_of_setV hf h

/-- The flag is written after the result (42_alu.md R140): a register that differs is one or the other. -/
theorem State.writesV_of_setResultFlag {x r : Nibble} {b : Byte} {flag : Bool} (hx : WritesV i x) (hf : WritesV i 0xF#4)
    (h : (s.setResultFlag x b flag).getV r ≠ s.getV r) : WritesV i r := by
  by_cases hr : (s.setV x b).getV r = s.getV r
  · exact State.writesV_of_setFlag (s := s.setV x b) hf (hr ▸ h)
  · exact State.writesV_of_setV hx hr

theorem State.writesV_of_loadRegs {x r : Nibble} (h : (s.loadRegs x).getV r ≠ s.getV r) : WritesV (.ldVxMem x) r := by
  rw [State.loadRegs_getV] at h
  split at h
  · next hr => simpa [WritesV] using hr
  · exact absurd rfl h

/-- Every instruction faults or writes what its family writes. -/
theorem exec_effect (h : exec i s = .next t) : ExecEffect s i t := by
  cases i with
  | sys nnn =>
    simp only [exec, execSys] at h
    split at h <;> cases h
    · exact .fault _ _ _
    · exact .regs s.v fun _ hne => absurd rfl hne
  | ret =>
    simp only [exec, execRet] at h
    split at h <;> cases h
    · exact .fault _ _ _
    · next hp =>
      obtain ⟨_, _, ht, _, _⟩ := State.pop_cases hp
      rw [ht]
      exact .ret _ _
  | call nnn =>
    simp only [exec, execCall] at h
    split at h <;> cases h
    · exact .fault _ _ _
    · next hp =>
      obtain ⟨ht, _, _⟩ := State.push_cases hp
      rw [ht]
      exact .call _ _ _ _
  | drw x y n =>
    simp only [exec, execDrw] at h
    split at h <;> cases h
    · exact .draw _ _ _ _ _
    · exact .fault _ _ _
  | ldBVx x =>
    simp only [exec, execLdBVx] at h
    split at h <;> cases h
    · rw [State.writeBytes_eq]
      exact .store _ ⟨x, .inl rfl⟩
    · exact .fault _ _ _
  | ldMemVx x =>
    simp only [exec, execLdMemVx] at h
    split at h <;> cases h
    · rw [State.writeBytes_eq]
      exact .store _ ⟨x, .inr rfl⟩
    · exact .fault _ _ _
  | ldVxMem x =>
    simp only [exec, execLdVxMem] at h
    split at h <;> cases h
    · rw [State.loadRegs_eq]
      exact .regs _ fun _ => State.writesV_of_loadRegs
    · exact .fault _ _ _
  | ldImm | addImm | ldReg | orReg | andReg | xorReg | ldVxDt =>
    cases h
    exact .regs _ fun _ => State.writesV_of_setV (by simp [WritesV])
  | addReg | sub | shr | subn | shl =>
    cases h
    exact .regs _ fun _ => State.writesV_of_setResultFlag (by simp [WritesV]) (by simp [WritesV])
  | seImm | sneImm | seReg | sneReg | skp | sknp =>
    cases h
    rw [State.skipIf_eq]
    exact .goto _ (by simp [SetsPc])
  | jp | jpV0 =>
    cases h
    exact .goto _ (by simp [SetsPc])
  | ldI | addIVx | ldFVx =>
    cases h
    exact .index _ (by simp)
  | rnd x kk =>
    cases h
    rw [State.consumeRand_eq]
    exact .rnd _ _ _ _ _
  | cls => cases h; exact .clear _
  | ldDtVx x => cases h; exact .delay _ _
  | ldStVx x => cases h; exact .sound _ _
  | ldVxK x => cases h; exact .wait _

/-! ### Each element of the state: which instructions write it -/

namespace ExecEffect

theorem readByte_ne (h : ExecEffect s i t) {a : Nat} (hne : t.readByte a ≠ s.readByte a) :
    ∃ x, i = .ldBVx x ∨ i = .ldMemVx x := by
  cases h with
  | store _ hi => exact hi
  | _ => exact absurd rfl hne

theorem getV_ne (h : ExecEffect s i t) {r : Nibble} (hne : t.getV r ≠ s.getV r) : WritesV i r := by
  cases h with
  | regs _ hv => exact hv r hne
  | rnd => exact State.writesV_of_setV (by simp [WritesV]) hne
  | draw => exact State.writesV_of_setFlag (by simp [WritesV]) hne
  | _ => exact absurd rfl hne

theorem i_ne (h : ExecEffect s i t) (hne : t.i ≠ s.i) :
    (∃ nnn, i = .ldI nnn) ∨ ∃ x, i = .addIVx x ∨ i = .ldFVx x := by
  cases h with
  | index _ hi => exact hi
  | _ => exact absurd rfl hne

theorem stack_ne (h : ExecEffect s i t) (hne : t.stack ≠ s.stack) : ∃ nnn, i = .call nnn := by
  cases h with
  | call nnn => exact ⟨nnn, rfl⟩
  | _ => exact absurd rfl hne

theorem sp_ne (h : ExecEffect s i t) (hne : t.sp ≠ s.sp) : i = .ret ∨ ∃ nnn, i = .call nnn := by
  cases h with
  | ret => exact .inl rfl
  | call nnn => exact .inr ⟨nnn, rfl⟩
  | _ => exact absurd rfl hne

theorem dt_ne (h : ExecEffect s i t) (hne : t.dt ≠ s.dt) : ∃ x, i = .ldDtVx x := by
  cases h with
  | delay x => exact ⟨x, rfl⟩
  | _ => exact absurd rfl hne

theorem st_ne (h : ExecEffect s i t) (hne : t.st ≠ s.st) : ∃ x, i = .ldStVx x := by
  cases h with
  | sound x => exact ⟨x, rfl⟩
  | _ => exact absurd rfl hne

theorem fb_ne (h : ExecEffect s i t) (hne : t.fb ≠ s.fb) : i = .cls ∨ ∃ x y n, i = .drw x y n := by
  cases h with
  | clear => exact .inl rfl
  | draw x y n => exact .inr ⟨x, y, n, rfl⟩
  | _ => exact absurd rfl hne

theorem runState_ne (h : ExecEffect s i t) (hne : t.runState ≠ s.runState) :
    t.runState = .halted ∨ ∃ x, i = .ldVxK x := by
  cases h with
  | fault => exact .inl rfl
  | wait x => exact .inr ⟨x, rfl⟩
  | _ => exact absurd rfl hne

theorem waitReg_ne (h : ExecEffect s i t) (hne : t.waitReg ≠ s.waitReg) : ∃ x, i = .ldVxK x := by
  cases h with
  | wait x => exact ⟨x, rfl⟩
  | _ => exact absurd rfl hne

theorem fault_ne (h : ExecEffect s i t) (hne : t.fault ≠ s.fault) : t.runState = .halted := by
  cases h with
  | fault => rfl
  | _ => exact absurd rfl hne

theorem rand_ne (h : ExecEffect s i t) (hne : t.randInputs ≠ s.randInputs ∨ t.randDraws ≠ s.randDraws) :
    ∃ x kk, i = .rnd x kk := by
  cases h with
  | rnd x kk => exact ⟨x, kk, rfl⟩
  | _ => exact absurd hne (by simp)

theorem keys_eq (h : ExecEffect s i t) : t.keys = s.keys := by cases h <;> rfl

theorem params_eq (h : ExecEffect s i t) : t.params = s.params := by cases h <;> rfl

/-- A fault keeps `pc` (40_cycle_engine.md R107); no other end of an instruction halts a machine that goes on. -/
theorem pc_of_halted (h : ExecEffect s i t) (hs : s.Live) (ht : t.runState = .halted) : t.pc = s.pc := by
  cases h with
  | fault => rfl
  | wait => cases ht
  | _ => exact absurd ht hs

/-- A completed instruction advances `pc` by 2 unless it sets `pc` itself (40_cycle_engine.md R105). -/
theorem pc_of_live (h : ExecEffect s i t) (ht : t.Live) (hne : t.pc ≠ s.pc + 2#16) : SetsPc i := by
  cases h with
  | fault => exact absurd rfl ht
  | goto _ hi => exact hi
  | ret => simp [SetsPc]
  | call => simp [SetsPc]
  | _ => exact absurd rfl hne

end ExecEffect

/-- A STEP that executes `i` has the effect of `i`. -/
theorem State.Executes.effect (he : s.Executes i) (h : step s = .next t) : ExecEffect s i t := by
  obtain ⟨hr, w, hf, hd⟩ := he
  rw [step_exec hr hf hd] at h
  exact exec_effect h

end

/-- Settles O15: each clause is the lemma about its element, from the one effect of the executed instruction. -/
theorem stepWritesOnlyWhatTheStateTableLists : Obligations.StepWritesOnlyWhatTheStateTableLists := by
  intro s t i he hstep
  have h := he.effect hstep
  have hs : s.Live := by simp [he.1]
  exact ⟨fun ⟨_, hne⟩ => h.readByte_ne hne, fun _ => h.getV_ne, h.i_ne, h.pc_of_halted hs, h.pc_of_live, h.stack_ne,
    h.sp_ne, h.dt_ne, h.st_ne, h.fb_ne, h.runState_ne, h.waitReg_ne, h.fault_ne, h.rand_ne, h.keys_eq, h.params_eq⟩

end Sys2Proof.Machine
end

section
/-! SUPPORT. From the decoder back to the word (30_encoding.md R73, R75): a decoded word is the word of its instruction, but for
SE Vx,Vy and SNE Vx,Vy, which ignore the low nibble. -/

namespace Sys2Proof

variable {w : Word} {i : Instr}

/-! ### A word of a given OP, put together from its fields -/

theorem addr_of_fieldOp {o : Nibble} (ho : fieldOp w = o) : (o ++ fieldNNN w : Word) = w :=
  ho ▸ word_eq_addr w

theorem byte_of_fieldOp {o : Nibble} {kk : Byte} (ho : fieldOp w = o) (hk : fieldNN w = kk) :
    (o ++ fieldX w ++ kk : Word) = w :=
  ho ▸ hk ▸ word_eq_byte w

theorem nibble_of_fieldOp {o n : Nibble} (ho : fieldOp w = o) (hn : fieldN w = n) :
    (o ++ fieldX w ++ fieldY w ++ n : Word) = w :=
  ho ▸ hn ▸ word_eq_nibble w

/-! ### The second level -/

theorem encode_of_decodeOp0 (ho : fieldOp w = 0x0#4) (h : decodeOp0 w = .op i) : encode i = w := by
  unfold decodeOp0 at h
  split at h
  · next hw => cases h; exact hw.symm
  · split at h
    · next hw => cases h; exact hw.symm
    · cases h; exact addr_of_fieldOp ho

theorem encode_of_decodeOp8 (ho : fieldOp w = 0x8#4) (h : decodeOp8 w = .op i) : encode i = w := by
  unfold decodeOp8 at h
  split at h <;> cases h
  all_goals exact nibble_of_fieldOp ho ‹_›

theorem encode_of_decodeOpE (ho : fieldOp w = 0xE#4) (h : decodeOpE w = .op i) : encode i = w := by
  unfold decodeOpE at h
  split at h <;> cases h
  all_goals exact byte_of_fieldOp ho ‹_›

theorem encode_of_decodeOpF (ho : fieldOp w = 0xF#4) (h : decodeOpF w = .op i) : encode i = w := by
  unfold decodeOpF at h
  split at h <;> cases h
  all_goals exact byte_of_fieldOp ho ‹_›

/-! ### The whole decoder -/

/-- A decoded word is the word of its instruction unless it is one of the two rows that ignore `w[3:0]` (30_encoding.md R75). -/
theorem encode_of_decodeWord (h : decodeWord w = .op i) :
    encode i = w ∨ i = .seReg (fieldX w) (fieldY w) ∨ i = .sneReg (fieldX w) (fieldY w) := by
  unfold decodeWord at h
  split at h
  -- OP 0, 8, E and F have a second level.
  case h_1 ho => exact .inl (encode_of_decodeOp0 ho h)
  case h_9 ho => exact .inl (encode_of_decodeOp8 ho h)
  case h_15 ho => exact .inl (encode_of_decodeOpE ho h)
  case h_16 =>
    have ho : fieldOp w = 0xF#4 := by
      simp only [imp_false] at *
      bv_omega
    exact .inl (encode_of_decodeOpF ho h)
  -- OP 5 and OP 9 ignore the low nibble.
  case h_6 => cases h; exact .inr (.inl rfl)
  case h_10 => cases h; exact .inr (.inr rfl)
  -- OP D is a row of nibbles; OP 3, 4, 6, 7 and C hold an immediate byte, OP 1, 2, A and B an address.
  case h_14 ho => cases h; exact .inl (nibble_of_fieldOp ho rfl)
  case h_4 ho | h_5 ho | h_7 ho | h_8 ho | h_13 ho => cases h; exact .inl (byte_of_fieldOp ho rfl)
  case h_2 ho | h_3 ho | h_11 ho | h_12 ho => cases h; exact .inl (addr_of_fieldOp ho)

end Sys2Proof
end

section
/-! SUPPORT and PROOFS. The cycle engine (40_cycle_engine.md): the two ends of a RUNNING STEP, and from them O14; the fetch (O7)
and the decode stage (O8). -/

namespace Sys2Proof.Machine

section
variable {i : Instr} {s : State}

/-- The word a faulting instruction records is the word it was decoded from (60_exceptions.md R222): neither row that drops bits
can fault. -/
theorem encode_of_execFault {w : Word} {kind : FaultKind} (hd : decodeWord w = .op i) (hf : execFault i s kind) :
    encode i = w := by
  obtain h | rfl | rfl := encode_of_decodeWord hd
  · exact h
  all_goals simp [execFault] at hf

/-- The two ends of a RUNNING STEP (40_cycle_engine.md R105, R107): a fault of some stage, which records the fetched word, or an
instruction executed to completion. -/
theorem step_running_ends (hr : s.runState = .running) :
    (∃ kind, step s = .next (s.raise kind s.fetch)) ∨ ∃ i t, s.Executes i ∧ step s = .next t ∧ t.Live := by
  obtain ⟨hf, -, hs⟩ | ⟨w, hf, -, hs⟩ | ⟨w, i, hf, hd, hs⟩ := step_running_cases hr
  · exact .inl ⟨_, hf ▸ hs⟩
  · exact .inl ⟨_, hf ▸ hs⟩
  · obtain ⟨kind, hk, he⟩ | ⟨-, t, he, -, -, -, hrun⟩ := exec_cases i s
    · exact .inl ⟨kind, by rw [hs, he, encode_of_execFault hd hk, hf]⟩
    · refine .inr ⟨i, t, ⟨hr, w, hf, hd⟩, hs.trans he, ?_⟩
      obtain h | ⟨-, -, h, -⟩ := hrun
      · simp [h, hr]
      · simp [h]

theorem setsRedraw_iff (i : Instr) : setsRedraw i = true ↔ i = .cls ∨ ∃ x y n, i = .drw x y n := by
  cases i <;> simp [setsRedraw]

theorem State.redraws_of_not_running (h : s.runState ≠ .running) : s.redraws = false := by
  simp [State.redraws, h]

/-- A poll never halts (40_cycle_engine.md R102). -/
theorem State.pollKeys_live (h : s.runState = .waitingForKey) : s.pollKeys.Live := by
  obtain ⟨-, he⟩ | ⟨k, -, -, he⟩ := s.pollKeys_cases
  · simp [he, h]
  · simp [he]

end

/-- Settles O14: a RUNNING STEP has one of two ends, each with its result; a waiting one goes on and executes nothing. -/
theorem redrawIsReportedByClsAndDrwAlone : Obligations.RedrawIsReportedByClsAndDrwAlone := by
  refine ⟨fun s t hr hs ht => ?_, fun s t hr hs ht => ?_, fun s hw => ?_⟩
  · obtain ⟨kind, he⟩ | ⟨i, t', -, he, hlive⟩ := step_running_ends hr
    · cases hs.symm.trans he
      exact ⟨kind, rfl, stepResult_of_halted hs rfl rfl⟩
    · cases hs.symm.trans he
      exact absurd ht hlive
  · obtain ⟨kind, he⟩ | ⟨i, t', hi, he, -⟩ := step_running_ends hr
    · cases hs.symm.trans he
      exact absurd rfl ht
    · have hres : stepResult s = .ok (setsRedraw i) := by
        rw [stepResult_of_live hs ht, State.redraws_of_executes hi]
      refine ⟨i, hi, ?_, ?_⟩
      · rw [hres, Response.ok.injEq, setsRedraw_iff]
      · rw [hres]
        cases setsRedraw i <;> simp
  · rw [stepResult_of_live (step_waiting hw) (State.pollKeys_live hw), State.redraws_of_not_running (by simp [hw])]

/-- Settles O7, from the one equation of the fetch. -/
theorem fetchReadsTwoBytesOrHalts : Obligations.FetchReadsTwoBytesOrHalts := by
  refine ⟨fun s hpc => ?_, fun s hr hpc => ?_⟩
  · rw [State.fetch_eq, if_pos hpc]
    rfl
  · have hf : s.fetch = none := by rw [State.fetch_eq, if_neg (by omega)]
    exact ⟨_, step_fetch_fault hr hf, rfl⟩

/-- Settles O8: the two answers of the decoder are the two stages that follow it. -/
theorem unknownOpcodeHaltsAndIsNamed : Obligations.UnknownOpcodeHaltsAndIsNamed := by
  intro s w hr hf
  split
  · next hd => exact ⟨_, step_unknown hr hf hd, rfl⟩
  · next i hd => exact step_exec hr hf hd

end Sys2Proof.Machine
end

section
/-! SUPPORT and PROOFS. Control transfer over the call stack (41_control.md): one equation for each end of RET and of CALL, and
from them O32 and O33. -/

namespace Sys2Proof.Machine

section
variable {s t : State}

/-! ### RET (41_control.md R121) -/

theorem exec_ret_of_empty (h : s.sp.val = 0) : exec .ret s = .next (s.raise .stackUnderflow (some 0x00EE#16)) := by
  simp only [exec, execRet, State.pop_empty h]
  rfl

theorem exec_ret_of_pop {a : Word} (h : s.pop = some (a, t)) : exec .ret s = .next (t.jump a) := by
  simp only [exec, execRet, h]

/-- With `k + 1` addresses held, the one popped is `stack[k]`. -/
theorem State.pop_of_succ {k : Fin 16} (h : s.sp.val = k.val + 1) :
    s.pop = some (s.stack[k], { s with sp := k.castSucc }) := by
  rw [State.pop_some (by omega)]
  simp [h, Fin.ext_iff]

/-! ### CALL (41_control.md R123) -/

@[simp] theorem toNat_zextAddr (nnn : Addr) : (zextAddr nnn).toNat = nnn.toNat :=
  BitVec.toNat_setWidth_of_le (by decide)

theorem exec_call_of_full (nnn : Addr) (h : s.sp.val = 16) :
    exec (.call nnn) s = .next (s.raise .stackOverflow (some (0x2#4 ++ nnn))) := by
  simp only [exec, execCall, State.push_full _ h]
  rfl

theorem exec_call_of_push (nnn : Addr) (h : s.push (s.pc + 2#16) = some t) :
    exec (.call nnn) s = .next (t.jump (zextAddr nnn)) := by
  simp only [exec, execCall, h]

end

/-- Settles O32: an empty stack faults; otherwise the jump is to the popped entry, and the pop writes `sp` alone. -/
theorem retPopsTheReturnAddress : Obligations.RetPopsTheReturnAddress := by
  refine fun s => ⟨fun h => ?_, fun k h => ?_⟩
  · exact ⟨_, exec_ret_of_empty h, rfl⟩
  · exact ⟨_, exec_ret_of_pop (State.pop_of_succ h), rfl, rfl, rfl⟩

/-- Settles O33: a full stack faults; otherwise the jump is to NNN, and the push writes one entry and `sp`. -/
theorem callPushesTheReturnAddress : Obligations.CallPushesTheReturnAddress := by
  refine fun nnn s => ⟨fun h => ?_, fun h => ?_⟩
  · exact ⟨_, exec_call_of_full nnn h, rfl⟩
  · have hpush := State.push_some (s.pc + 2#16) h
    obtain ⟨-, hsp, hstack⟩ := State.push_cases hpush
    exact ⟨_, exec_call_of_push nnn hpush, rfl, hsp, toNat_zextAddr nnn, hstack⟩

end Sys2Proof.Machine
end

section
/-! SUPPORT and PROOFS. ADD, SUB and SUBN over registers (42_alu.md): the one shape of an instruction that writes a result and
then VF, and from it O40, O41 and O42. -/

namespace Sys2Proof.Machine

/-! ### The flags and the results as numbers -/

theorem carryOut_toNat (a b : Byte) : (carryOut a b).toNat = if 255 < a.toNat + b.toNat then 1 else 0 :=
  Bool.cond_decide _ _ _

theorem noBorrow_toNat (a b : Byte) : (noBorrow a b).toNat = if b.toNat ≤ a.toNat then 1 else 0 :=
  Bool.cond_decide _ _ _

/-- `(a - b) mod 256` of 42_alu.md R148 and R150 as a natural number: 256 is added first, so that the subtraction of naturals does
not truncate. -/
theorem toNat_sub_byte (a b : Byte) : (a - b).toNat = (a.toNat + 256 - b.toNat) % 256 := by
  bv_omega

/-! ### A result, then the flag -/

/-- An instruction that writes a result of value `n` into `V[X]`, then a flag of value `f` into VF, and advances: the flag wins
at X = 15 (42_alu.md R140), and nothing but the registers and `pc` differs. -/
theorem exec_setResultFlag {i : Instr} {s : State} {x : Nibble} {b : Byte} {flag : Bool} {n f : Nat}
    (he : exec i s = .next (s.setResultFlag x b flag).advance) (hn : b.toNat = n) (hf : flag.toNat = f) :
    ∃ t, exec i s = .next t ∧ SameButRegsPc s t ∧ t.pc = s.pc + 2#16 ∧
      ∀ r, (t.getV r).toNat = if r = 0xF#4 then f else if r = x then n else (s.getV r).toNat := by
  refine ⟨_, he, rfl, rfl, fun r => ?_⟩
  rw [State.advance_getV, State.setResultFlag_getV]
  split
  · cases flag <;> exact hf
  · split
    · exact hn
    · rfl

/-- Settles O40: the sum is taken modulo 256, and the flag is the carry. -/
theorem addWritesSumAndCarry : Obligations.AddWritesSumAndCarry :=
  fun _ _ _ => exec_setResultFlag rfl (BitVec.toNat_add _ _) (carryOut_toNat _ _)

/-- Settles O41: the difference is taken modulo 256, and the flag is the absence of a borrow. -/
theorem subWritesDifferenceAndNoBorrow : Obligations.SubWritesDifferenceAndNoBorrow :=
  fun _ _ _ => exec_setResultFlag rfl (toNat_sub_byte _ _) (noBorrow_toNat _ _)

/-- Settles O42: SUB with the operands exchanged, the destination still `V[X]`. -/
theorem subnWritesReversedDifference : Obligations.SubnWritesReversedDifference :=
  fun _ _ _ => exec_setResultFlag rfl (toNat_sub_byte _ _) (noBorrow_toNat _ _)

end Sys2Proof.Machine
end

section
/-! SUPPORT and PROOFS. The bulk store and load (43_memory_index.md R164, R165): the two ends of each, by the bound of R60, and
from them O46 and O47. -/

namespace Sys2Proof.Machine

section
variable {x : Nibble} {s : State}

/-! ### LD [I], Vx -/

theorem exec_ldMemVx_of_le (h : s.i.toNat + x.toNat ≤ 0xFFF) :
    exec (.ldMemVx x) s = .next (s.writeBytes s.i.toNat (s.regsUpTo x)).advance :=
  if_pos ((State.inBounds_effAddr s x.toNat).2 h)

theorem exec_ldMemVx_of_lt (h : 0xFFF < s.i.toNat + x.toNat) :
    exec (.ldMemVx x) s = .next (s.raise .memoryOutOfBounds (some (0xF#4 ++ x ++ 0x55#8))) :=
  if_neg (Bool.eq_false_iff.1 ((State.not_inBounds_effAddr s x.toNat).2 h))

/-- `V[k]` stands at offset `k` of a store of V0..VX. -/
theorem State.writeBytes_regsUpTo_inside (a : Nat) {k : Nibble} (hk : k.toNat ≤ x.toNat) :
    (s.writeBytes a (s.regsUpTo x)).readByte (a + k.toNat) = s.getV k := by
  rw [State.writeBytes_readByte, State.regsUpTo_length, if_pos (by omega), Nat.add_sub_cancel_left,
    State.regsUpTo_getD s x _ hk, BitVec.ofNat_toNat, BitVec.setWidth_eq]

/-- The last byte of a store of V0..VX from `a` on is the one at `a + X`. -/
theorem State.writeBytes_regsUpTo_outside {a m : Nat} (hm : m < a ∨ a + x.toNat < m) :
    (s.writeBytes a (s.regsUpTo x)).readByte m = s.readByte m := by
  rw [State.writeBytes_readByte, State.regsUpTo_length, if_neg (by omega)]

/-! ### LD Vx, [I] -/

theorem exec_ldVxMem_of_le (h : s.i.toNat + x.toNat ≤ 0xFFF) : exec (.ldVxMem x) s = .next (s.loadRegs x).advance :=
  if_pos ((State.inBounds_effAddr s x.toNat).2 h)

theorem exec_ldVxMem_of_lt (h : 0xFFF < s.i.toNat + x.toNat) :
    exec (.ldVxMem x) s = .next (s.raise .memoryOutOfBounds (some (0xF#4 ++ x ++ 0x65#8))) :=
  if_neg (Bool.eq_false_iff.1 ((State.not_inBounds_effAddr s x.toNat).2 h))

@[simp] theorem State.loadRegs_pc : (s.loadRegs x).pc = s.pc := by rw [State.loadRegs_eq]

end

/-- Settles O46: within memory the registers stand from `I` on and nothing else is written; beyond it the check faults. -/
theorem bulkStoreWritesV0ToVx : Obligations.BulkStoreWritesV0ToVx := by
  refine fun x s => ⟨fun h => ⟨_, exec_ldMemVx_of_le h, ?_, ?_, fun k hk => ?_, fun a ha => ?_⟩,
    fun h => ⟨_, exec_ldMemVx_of_lt h, rfl⟩⟩
  · rw [State.writeBytes_eq]
    rfl
  · simp
  · exact State.writeBytes_regsUpTo_inside s.i.toNat hk
  · exact State.writeBytes_regsUpTo_outside ha

/-- Settles O47: within memory the registers up to VX read the bytes from `I` on; beyond it the check faults. -/
theorem bulkLoadReadsV0ToVx : Obligations.BulkLoadReadsV0ToVx := by
  refine fun x s => ⟨fun h => ⟨_, exec_ldVxMem_of_le h, ?_, ?_, fun r => ?_⟩, fun h => ⟨_, exec_ldVxMem_of_lt h, rfl⟩⟩
  · rw [State.loadRegs_eq]
    rfl
  · simp
  · exact State.loadRegs_getV s x r

end Sys2Proof.Machine
end

section
/-! SUPPORT and PROOFS. The encoding (30_encoding.md): the decoder after the encoder (O1), the encoder after the decoder (O2), the
unknown words (O3), the rows of the opcode map (O4) and sample words (O5). -/

namespace Sys2Proof

section
variable {w : Word} {i j : Instr}

/-! ### The high nibbles with a second level (30_encoding.md R73) -/

theorem decodeWord_of_op0 (ho : fieldOp w = 0x0#4) : decodeWord w = decodeOp0 w := by simp only [decodeWord, ho]

theorem decodeWord_of_op8 (ho : fieldOp w = 0x8#4) : decodeWord w = decodeOp8 w := by simp only [decodeWord, ho]

theorem decodeWord_of_opE (ho : fieldOp w = 0xE#4) : decodeWord w = decodeOpE w := by simp only [decodeWord, ho]

theorem decodeWord_of_opF (ho : fieldOp w = 0xF#4) : decodeWord w = decodeOpF w := by simp [decodeWord, ho]

/-! ### The decoder after the encoder -/

/-- Every legal SYS word is past the two words that OP 0 decodes first (30_encoding.md R77). -/
theorem decodeOp0_sys {nnn : Addr} (h : (Instr.sys nnn).wf = true) : decodeOp0 (0x0#4 ++ nnn : Word) = .op (.sys nnn) := by
  obtain ⟨hcls, hret⟩ : nnn ≠ 0x0E0#12 ∧ nnn ≠ 0x0EE#12 := by simpa [Instr.wf] using h
  have word_ne (v : Word) (hv : nnn ≠ fieldNNN v) : (0x0#4 ++ nnn : Word) ≠ v :=
    fun he => hv ((fieldNNN_addr 0x0#4 nnn).symm.trans (congrArg fieldNNN he))
  rw [decodeOp0, if_neg (word_ne 0x00E0#16 hcls), if_neg (word_ne 0x00EE#16 hret), fieldNNN_addr]

/-- The word of a well-formed instruction decodes to it: each format gives back the fields that select the row and the
operands. -/
theorem decodeWord_encode (h : i.wf = true) : decodeWord (encode i) = .op i := by
  cases i with
  | sys nnn => exact (decodeWord_of_op0 (fieldOp_addr _ _)).trans (decodeOp0_sys h)
  | cls | ret => rfl
  | jp | call | ldI | jpV0 => simp only [encode, decodeWord, fieldOp_addr, fieldNNN_addr]
  | seImm | sneImm | ldImm | addImm | rnd => simp only [encode, decodeWord, fieldOp_byte, fieldX_byte, fieldNN_byte]
  | seReg | sneReg | drw =>
    simp only [encode, decodeWord, fieldOp_nibble, fieldX_nibble, fieldY_nibble, fieldN_nibble]
  | ldReg | orReg | andReg | xorReg | addReg | sub | shr | subn | shl =>
    refine (decodeWord_of_op8 (fieldOp_nibble _ _ _ _)).trans ?_
    simp only [decodeOp8, fieldX_nibble, fieldY_nibble, fieldN_nibble]
  | skp | sknp =>
    refine (decodeWord_of_opE (fieldOp_byte _ _ _)).trans ?_
    simp only [decodeOpE, fieldX_byte, fieldNN_byte]
  | ldVxDt | ldVxK | ldDtVx | ldStVx | addIVx | ldFVx | ldBVx | ldMemVx | ldVxMem =>
    refine (decodeWord_of_opF (fieldOp_byte _ _ _)).trans ?_
    simp only [decodeOpF, fieldX_byte, fieldNN_byte]

/-! ### The encoder after the decoder -/

/-- The decoder keeps the high nibble, also where it drops the low one. -/
theorem fieldOp_encode_of_decodeWord (h : decodeWord w = .op i) : fieldOp (encode i) = fieldOp w := by
  unfold decodeWord at h
  split at h
  case h_1 ho => rw [encode_of_decodeOp0 ho h]
  case h_9 ho => rw [encode_of_decodeOp8 ho h]
  case h_15 ho => rw [encode_of_decodeOpE ho h]
  case h_16 =>
    have ho : fieldOp w = 0xF#4 := by
      simp only [imp_false] at *
      bv_omega
    rw [encode_of_decodeOpF ho h]
  case h_2 ho | h_3 ho | h_11 ho | h_12 ho => cases h; exact ho ▸ fieldOp_addr _ _
  case h_4 ho | h_5 ho | h_7 ho | h_8 ho | h_13 ho => cases h; exact ho ▸ fieldOp_byte _ _ _
  case h_6 ho | h_10 ho | h_14 ho => cases h; exact ho ▸ fieldOp_nibble _ _ _ _

/-- SYS never stands for 0x00E0 or 0x00EE, which OP 0 decodes as CLS and RET (30_encoding.md R77). -/
theorem wf_of_decodeWord (h : decodeWord w = .op i) : i.wf = true := by
  cases i with
  | sys nnn =>
    obtain rfl : encode (.sys nnn) = w := by simpa using encode_of_decodeWord h
    have hcls : nnn ≠ 0x0E0#12 := by rintro rfl; exact absurd h (by decide)
    have hret : nnn ≠ 0x0EE#12 := by rintro rfl; exact absurd h (by decide)
    simp [Instr.wf, hcls, hret]
  | _ => rfl

theorem clear_low_nibble (w : Word) : w &&& 0xFFF0#16 = fieldOp w ++ fieldX w ++ fieldY w ++ 0x0#4 := by
  conv_lhs => rw [← word_eq_nibble w, show 0xFFF0#16 = BitVec.allOnes 12 ++ 0x0#4 from rfl]
  refine (Laws.RowMatch.append_and _ _ _ _).trans ?_
  rw [BitVec.and_zero]
  congr 1
  exact BitVec.and_allOnes

/-! ### The unknown words (30_encoding.md R76) -/

theorem decodeOp0_ne_unknown : decodeOp0 w ≠ .unknownOpcode := by
  unfold decodeOp0
  split
  · simp
  · split <;> simp

theorem decodeOp8_eq_unknown_iff :
    decodeOp8 w = .unknownOpcode ↔ fieldN w ∈ [0x8#4, 0x9#4, 0xA#4, 0xB#4, 0xC#4, 0xD#4, 0xF#4] := by
  unfold decodeOp8
  generalize fieldN w = n
  split
  case h_10 =>
    simp only [imp_false, List.mem_cons, List.not_mem_nil, or_false, true_iff] at *
    bv_omega
  all_goals simp

theorem decodeOpE_eq_unknown_iff : decodeOpE w = .unknownOpcode ↔ fieldNN w ∉ [0x9E#8, 0xA1#8] := by
  unfold decodeOpE
  split <;> simp_all

theorem decodeOpF_eq_unknown_iff :
    decodeOpF w = .unknownOpcode ↔
      fieldNN w ∉ [0x07#8, 0x0A#8, 0x15#8, 0x18#8, 0x1E#8, 0x29#8, 0x33#8, 0x55#8, 0x65#8] := by
  unfold decodeOpF
  split <;> simp_all

/-! ### The rows of the opcode map (30_encoding.md R74) -/

section
variable {m p : Word} (h : w &&& m = p)
include h

theorem fieldOp_of_masked (hm : fieldOp m = BitVec.allOnes 4) : fieldOp w = fieldOp p :=
  calc fieldOp w = fieldOp w &&& fieldOp m := by rw [hm, BitVec.and_allOnes]
    _ = fieldOp (w &&& m) := BitVec.extractLsb'_and.symm
    _ = fieldOp p := by rw [h]

theorem fieldN_of_masked (hm : fieldN m = BitVec.allOnes 4) : fieldN w = fieldN p :=
  calc fieldN w = fieldN w &&& fieldN m := by rw [hm, BitVec.and_allOnes]
    _ = fieldN (w &&& m) := BitVec.extractLsb'_and.symm
    _ = fieldN p := by rw [h]

theorem fieldNN_of_masked (hm : fieldNN m = BitVec.allOnes 8) : fieldNN w = fieldNN p :=
  calc fieldNN w = fieldNN w &&& fieldNN m := by rw [hm, BitVec.and_allOnes]
    _ = fieldNN (w &&& m) := BitVec.extractLsb'_and.symm
    _ = fieldNN p := by rw [h]

end

/-- A word that a row selects decodes to an instruction of the row: the row fixes every field the decoder looks at. -/
theorem decodeWord_of_selected (h : w &&& rowMask j = rowMatch j)
    (hsys : (∃ nnn, j = .sys nnn) → w ≠ 0x00E0#16 ∧ w ≠ 0x00EE#16) :
    ∃ i, decodeWord w = .op i ∧ rowMask i = rowMask j ∧ rowMatch i = rowMatch j := by
  cases j with
  | sys nnn =>
    obtain ⟨hcls, hret⟩ := hsys ⟨nnn, rfl⟩
    have ho : fieldOp w = 0x0#4 := fieldOp_of_masked (m := 0xF000#16) (p := 0x0000#16) h rfl
    exact ⟨.sys (fieldNNN w), by rw [decodeWord_of_op0 ho, decodeOp0, if_neg hcls, if_neg hret], rfl, rfl⟩
  | cls | ret =>
    obtain rfl := (BitVec.and_allOnes (x := w)).symm.trans h
    exact ⟨_, rfl, rfl, rfl⟩
  | ldReg | orReg | andReg | xorReg | addReg | sub | shr | subn | shl =>
    simp only [rowMask, rowMatch] at h
    have hd := decodeWord_of_op8 (fieldOp_of_masked h rfl)
    rw [decodeOp8, fieldN_of_masked h rfl] at hd
    exact ⟨_, hd, rfl, rfl⟩
  | skp | sknp =>
    simp only [rowMask, rowMatch] at h
    have hd := decodeWord_of_opE (fieldOp_of_masked h rfl)
    rw [decodeOpE, fieldNN_of_masked h rfl] at hd
    exact ⟨_, hd, rfl, rfl⟩
  | ldVxDt | ldVxK | ldDtVx | ldStVx | addIVx | ldFVx | ldBVx | ldMemVx | ldVxMem =>
    simp only [rowMask, rowMatch] at h
    have hd := decodeWord_of_opF (fieldOp_of_masked h rfl)
    rw [decodeOpF, fieldNN_of_masked h rfl] at hd
    exact ⟨_, hd, rfl, rfl⟩
  | _ =>
    simp only [rowMask, rowMatch] at h
    have hd := decodeWord.eq_def w
    rw [fieldOp_of_masked h rfl] at hd
    exact ⟨_, hd, rfl, rfl⟩

open Laws.RowMatch in
/-- The word of an instruction is selected by the instruction's row. -/
theorem selected_encode (i : Instr) : encode i &&& rowMask i = rowMatch i := by
  cases i with
  | cls | ret => rfl
  | sys | jp | call | ldI | jpV0 => exact mask_addr _ _
  | seImm | sneImm | ldImm | addImm | rnd => exact (mask_byte _ _ _ 0x00#8).trans (by rw [BitVec.and_zero]; rfl)
  | drw => exact (mask_nibble _ _ _ _ 0x0#4).trans (by rw [BitVec.and_zero]; rfl)
  | seReg | sneReg => exact mask_nibble _ _ _ _ 0x0#4
  | ldReg | orReg | andReg | xorReg | addReg | sub | shr | subn | shl => exact mask_nibble _ _ _ _ 0xF#4
  | skp | sknp | ldVxDt | ldVxK | ldDtVx | ldStVx | addIVx | ldFVx | ldBVx | ldMemVx | ldVxMem =>
    exact mask_byte _ _ _ 0xFF#8

/-- A decoded word is selected by the row of its instruction: the rows that drop bits of the word look at its high nibble
alone. -/
theorem selected_of_decodeWord (h : decodeWord w = .op i) : w &&& rowMask i = rowMatch i := by
  obtain hw | hi := encode_of_decodeWord h
  · rw [← selected_encode i, hw]
  · have hm : rowMask i = 0xF000#16 := by obtain rfl | rfl := hi <;> rfl
    have mask (v : Word) : v &&& 0xF000#16 = fieldOp v ++ 0#12 := by
      conv_lhs => rw [← word_eq_addr v]
      exact Laws.RowMatch.mask_addr _ _
    rw [← selected_encode i, hm, mask, mask, fieldOp_encode_of_decodeWord h]

end

/-- Settles O1: the word decodes to its instruction, and so do the word's bytes. -/
theorem encodeThenDecodeGivesTheInstruction : Obligations.EncodeThenDecodeGivesTheInstruction := by
  refine fun i h => ⟨decodeWord_encode h, fun rest => ?_⟩
  rw [decode_bytesOfWord, decodeWord_encode h]

/-- Settles O2: OP 5 and OP 9 are the two rows that drop the low nibble; any other word is kept whole. -/
theorem decodeThenEncodeGivesTheWord : Obligations.DecodeThenEncodeGivesTheWord := by
  refine fun w i h => ⟨wf_of_decodeWord h, ?_⟩
  have hop := fieldOp_encode_of_decodeWord h
  split
  · next ho =>
    rw [clear_low_nibble]
    obtain ho | ho := ho
    all_goals
      rw [decodeWord, ho] at h
      cases h
      rw [ho]
      rfl
  · next ho =>
    obtain ⟨h5, h9⟩ := not_or.1 ho
    obtain hw | rfl | rfl := encode_of_decodeWord h
    · exact hw
    · exact absurd (hop.symm.trans (fieldOp_nibble _ _ _ _)) h5
    · exact absurd (hop.symm.trans (fieldOp_nibble _ _ _ _)) h9

/-- Settles O3: only OP 8, E and F have words without a row. -/
theorem unknownWordsAreTheListedOnes : Obligations.UnknownWordsAreTheListedOnes := by
  intro w
  unfold decodeWord
  split
  case h_1 ho => simp [ho, decodeOp0_ne_unknown]
  case h_9 ho => simp [ho, decodeOp8_eq_unknown_iff]
  case h_15 ho => simp [ho, decodeOpE_eq_unknown_iff]
  case h_16 =>
    have ho : fieldOp w = 0xF#4 := by
      simp only [imp_false] at *
      bv_omega
    simp [ho, decodeOpF_eq_unknown_iff]
  all_goals simp [*]

/-- Settles O4: one direction for each row by its fixed bits; in the other the decoder answers an instruction of the row, which
is SYS for neither of the two words excepted. -/
theorem maskAndMatchSelectTheDecodedRow : Obligations.MaskAndMatchSelectTheDecodedRow := by
  refine fun w j => ⟨fun ⟨h, hsys⟩ => decodeWord_of_selected h hsys, ?_⟩
  rintro ⟨i, hd, hmask, hmatch⟩
  refine ⟨hmask ▸ hmatch ▸ selected_of_decodeWord hd, ?_⟩
  rintro ⟨nnn, rfl⟩
  constructor
  all_goals
    rintro rfl
    cases hd
    exact absurd hmask (by simp [rowMask])

/-- Settles O5, by evaluating the decoder. -/
theorem sampleWordsDecode : Obligations.SampleWordsDecode := by
  unfold Obligations.SampleWordsDecode
  decide

end Sys2Proof
end

section
/-! SUPPORT and PROOFS. The invariant `State.Inv`: it holds after reset (O20), every STEP keeps it (O21), and so does every event
(O22). -/

namespace Sys2Proof.Machine

section
variable {i : Instr} {s t : State}

/-! ### The two ends of a STEP -/

/-- A fault names the `pc` it keeps (40_cycle_engine.md R107), so it can end a STEP of any legal state. -/
theorem State.Inv.raise (h : s.Inv) (kind : FaultKind) (word : Option Word) : (s.raise kind word).Inv := by
  obtain ⟨hmem, -, -, hpc, hstack⟩ := h
  exact ⟨hmem, by simp, by simp [State.faultPcOk], hpc, hstack⟩

/-- A machine that goes on has no fault recorded (10_state.md R31). -/
theorem State.Inv.fault_none (h : s.Inv) (hs : s.Live) : s.fault = none := by
  obtain ⟨-, hf, -⟩ := h
  exact Option.not_isSome_iff_eq_none.1 fun hc => hs (hf.1 hc)

/-- Where nothing halts and nothing is recorded, the invariant is that of memory and the bounds. -/
theorem State.inv_of_live (hlive : t.Live) (hfault : t.fault = none) (hmem : memoryWf t.params t.mem = true)
    (hpc : t.pc.toNat ≤ 0x10FE) (hstack : ∀ k : Fin 16, t.stack[k].toNat ≤ 0x1000) : t.Inv :=
  ⟨hmem, by simp [hfault, hlive], by simp [State.faultPcOk, hfault], hpc, hstack⟩

/-! ### An executed instruction: memory -/

theorem ExecEffect.mem_ne (h : ExecEffect s i t) (hne : t.mem ≠ s.mem) : ∃ x, i = .ldBVx x ∨ i = .ldMemVx x := by
  cases h with
  | store _ hi => exact hi
  | _ => exact absurd rfl hne

theorem exec_ldBVx_of_le {x : Nibble} (h : s.i.toNat + 2 ≤ 0xFFF) :
    exec (.ldBVx x) s = .next (s.writeBytes s.i.toNat (bcdDigits (s.getV x))).advance :=
  if_pos ((State.inBounds_effAddr s 2).2 h)

theorem exec_ldBVx_of_lt {x : Nibble} (h : 0xFFF < s.i.toNat + 2) :
    exec (.ldBVx x) s = .next (s.raise .memoryOutOfBounds (some (0xF#4 ++ x ++ 0x33#8))) :=
  if_neg (Bool.eq_false_iff.1 ((State.not_inBounds_effAddr s 2).2 h))

/-- The stores check their last address before they write (20_memory.md R60), so what they write is memory. -/
theorem exec_memoryWf (h : exec i s = .next t) (hm : memoryWf s.params s.mem = true) : memoryWf t.params t.mem = true := by
  by_cases hmem : t.mem = s.mem
  · rwa [hmem, (exec_effect h).params_eq]
  · rw [(exec_effect h).params_eq]
    obtain ⟨x, rfl | rfl⟩ := (exec_effect h).mem_ne hmem
    · obtain hle | hlt := le_or_gt (s.i.toNat + 2) 0xFFF
      · cases (exec_ldBVx_of_le hle).symm.trans h
        exact State.writeBytes_memoryWf (by simp only [bcdDigits, List.length_cons, List.length_nil]; omega) hm
      · cases (exec_ldBVx_of_lt hlt).symm.trans h
        exact hm
    · obtain hle | hlt := le_or_gt (s.i.toNat + x.toNat) 0xFFF
      · cases (exec_ldMemVx_of_le hle).symm.trans h
        exact State.writeBytes_memoryWf (by rw [State.regsUpTo_length]; omega) hm
      · cases (exec_ldMemVx_of_lt hlt).symm.trans h
        exact hm

/-! ### An executed instruction: `pc` and the stack -/

@[simp] theorem toNat_zextByte (b : Byte) : (zextByte b).toNat = b.toNat :=
  BitVec.toNat_setWidth_of_le (by decide)

/-- The unmasked sum of JP V0 (41_control.md R128) stays far below 65536. -/
theorem toNat_zextAddr_add_zextByte (nnn : Addr) (b : Byte) : (zextAddr nnn + zextByte b).toNat = nnn.toNat + b.toNat := by
  have hn := nnn.isLt
  have hb := b.isLt
  rw [BitVec.toNat_add, toNat_zextAddr, toNat_zextByte]
  omega

/-- A skip goes at most 4 bytes on. -/
theorem State.skipIf_pc_le {taken : Bool} (hpc : s.pc.toNat ≤ 0xFFE) : (s.skipIf taken).pc.toNat ≤ 0x10FE := by
  rw [State.skipIf_pc]
  split <;> bv_omega

/-- The highest `pc` is that of JP V0, 0xFFF + 0xFF (10_state.md R24). -/
theorem exec_pc_le (h : exec i s = .next t) (hs : s.Live) (hpc : s.pc.toNat ≤ 0xFFE)
    (hstack : ∀ k : Fin 16, s.stack[k].toNat ≤ 0x1000) : t.pc.toNat ≤ 0x10FE := by
  by_cases ht : t.runState = .halted
  · rw [(exec_effect h).pc_of_halted hs ht]
    omega
  by_cases hadv : t.pc = s.pc + 2#16
  · bv_omega
  obtain ⟨nnn, rfl | rfl | rfl⟩ | rfl | ⟨x, kk, rfl | rfl⟩ | ⟨x, y, rfl | rfl⟩ | ⟨x, rfl | rfl⟩ :=
    (exec_effect h).pc_of_live ht hadv
  -- JP, JP V0, CALL
  · cases h
    have := nnn.isLt
    simp only [State.jump_pc, toNat_zextAddr]
    omega
  · cases h
    have := nnn.isLt
    have := (s.getV 0x0#4).isLt
    simp only [State.jump_pc, toNat_zextAddr_add_zextByte]
    omega
  · simp only [exec, execCall] at h
    split at h <;> cases h
    · exact absurd rfl ht
    · have := nnn.isLt
      simp only [State.jump_pc, toNat_zextAddr]
      omega
  -- RET
  · simp only [exec, execRet] at h
    split at h <;> cases h
    · exact absurd rfl ht
    · next hpop =>
      obtain ⟨k, rfl, -⟩ := State.pop_cases hpop
      exact (hstack k).trans (by decide)
  -- the skips
  all_goals
    cases h
    exact State.skipIf_pc_le hpc

/-- CALL pushes the address after a fetched instruction, at most 0x1000 (41_control.md R123); nothing else writes the stack. -/
theorem exec_stack_le (h : exec i s = .next t) (hpc : s.pc.toNat ≤ 0xFFE)
    (hstack : ∀ k : Fin 16, s.stack[k].toNat ≤ 0x1000) (k : Fin 16) : t.stack[k].toNat ≤ 0x1000 := by
  by_cases hs : t.stack = s.stack
  · exact hs ▸ hstack k
  obtain ⟨nnn, rfl⟩ := (exec_effect h).stack_ne hs
  simp only [exec, execCall] at h
  split at h <;> cases h
  · exact hstack k
  · next hpush =>
    obtain ⟨-, -, hentry⟩ := State.push_cases hpush
    rw [State.jump_stack, hentry k]
    split
    · bv_omega
    · exact hstack k

/-! ### The STEP and the other events -/

theorem State.Inv.exec (h : s.Inv) (hr : s.runState = .running) (hpc : s.pc.toNat ≤ 0xFFE) (he : exec i s = .next t) :
    t.Inv := by
  have hlive : s.Live := by simp [hr]
  obtain ⟨kind, -, hraise⟩ | ⟨-, t', hnext, hfault, -, -, hrun⟩ := exec_cases i s
  · cases hraise.symm.trans he
    exact h.raise _ _
  · cases hnext.symm.trans he
    have ht : t.Live := by
      obtain hrun | ⟨-, -, hrun, -⟩ := hrun <;> simp [hrun, hr]
    have hnone := h.fault_none hlive
    obtain ⟨hmem, -, -, -, hstack⟩ := h
    exact State.inv_of_live ht (hfault.trans hnone) (exec_memoryWf he hmem) (exec_pc_le he hlive hpc hstack)
      (exec_stack_le he hpc hstack)

theorem State.Inv.pollKeys (h : s.Inv) (hw : s.runState = .waitingForKey) : s.pollKeys.Inv := by
  obtain ⟨-, heq⟩ | ⟨k, -, -, heq⟩ := s.pollKeys_cases
  · rwa [heq]
  · rw [heq]
    have hfault := h.fault_none (by simp [hw])
    obtain ⟨hmem, -, -, hpc, hstack⟩ := h
    exact State.inv_of_live (by simp) hfault hmem hpc hstack

theorem State.Inv.step (h : s.Inv) (hs : step s = .next t) : t.Inv := by
  cases hrun : s.runState with
  | halted => cases (step_halted hrun).symm.trans hs
  | waitingForKey =>
    cases (step_waiting hrun).symm.trans hs
    exact h.pollKeys hrun
  | running =>
    obtain ⟨-, -, hstep⟩ | ⟨w, -, -, hstep⟩ | ⟨w, i, hf, -, hstep⟩ := step_running_cases hrun
    · cases hstep.symm.trans hs
      exact h.raise _ _
    · cases hstep.symm.trans hs
      exact h.raise _ _
    · exact h.exec hrun (State.fetch_some hf) (hstep.symm.trans hs)

theorem State.Inv.afterStep (h : s.Inv) : s.afterStep.Inv := by
  unfold State.afterStep
  split
  · next hs => exact h.step hs
  · exact h
  · exact h

/-- An image that fits ends at 0xFFF (70_reset_and_hazards.md R251). -/
theorem State.Inv.loadImage (h : s.Inv) {image : List Byte} (hlen : image.length ≤ Config.maxImage) :
    (s.loadImage image).Inv := by
  have hlen : Config.progBase + image.length ≤ 0x1000 := by
    unfold Config.maxImage at hlen
    unfold Config.progBase
    omega
  rw [State.loadImage, State.writeBytes_eq]
  obtain ⟨hmem, hrest⟩ := h
  exact ⟨State.writeBytes_memoryWf hlen hmem, hrest⟩

theorem State.Inv.rejectImage (h : s.Inv) : s.rejectImage.Inv := by
  obtain ⟨hmem, -, -, hpc, hstack⟩ := h
  exact ⟨hmem, by simp, by simp [State.faultPcOk], hpc, hstack⟩

theorem State.resetWith_inv (p : Config.Params) (n : Nat) : (State.resetWith p n).Inv :=
  State.inv_of_live (by simp [State.resetWith]) rfl rfl (by simp [State.resetWith]) fun k => by simp [State.resetWith]

end

/-- Settles O20. -/
theorem resetStateIsLegal : Obligations.ResetStateIsLegal := State.resetWith_inv

/-- Settles O21: a fault keeps everything the bounds speak of; an executed instruction keeps each part. -/
theorem stepKeepsTheStateLegal : Obligations.StepKeepsTheStateLegal := fun _ _ => State.Inv.step

/-- Settles O22: RESET and STEP by O20 and O21; LOAD stays within memory; TICK, KEY and the byte `rand` touch nothing that the
invariant speaks of. -/
theorem everyEventKeepsTheStateLegal : Obligations.EveryEventKeepsTheStateLegal := by
  intro e m h
  cases e with
  | reset => exact State.resetWith_inv _ _
  | load image =>
    simp only [handle, Session.load]
    split
    · split
      · exact h.rejectImage
      · next hlen => exact h.loadImage (Nat.le_of_not_lt hlen)
    · exact h
  | step rand =>
    have hrand : (m.state.withRand rand).Inv := h
    exact hrand.afterStep
  | tick => exact h
  | key k down => exact h

end Sys2Proof.Machine
end

section
/-! SUPPORT and PROOFS. The engine (40_cycle_engine.md, 60_exceptions.md): the fault table (O11, O12), completion (O13), the
stages of a STEP (O6, O9, O10), VF (O16), the transitions of the run state (O17), and the self-jump (O19). -/

namespace Sys2Proof.Machine

section
variable {i : Instr} {s t : State} {kind kind' : FaultKind} {word : Option Word}

/-! ### The fault table (60_exceptions.md R220, R223) -/

/-- An instruction has at most one fault condition. -/
theorem execFault_unique (h : execFault i s kind) (h' : execFault i s kind') : kind = kind' := by
  cases i <;> simp_all [execFault]

/-- An instruction whose condition holds raises its fault, with its own word. -/
theorem exec_of_execFault (h : execFault i s kind) : exec i s = .next (s.raise kind (some (encode i))) := by
  obtain ⟨kind', h', he⟩ | ⟨hnot, -⟩ := exec_cases i s
  · rw [he, execFault_unique h h']
  · exact absurd h (hnot kind)

/-- No instruction reports RomTooLarge, the fault of LOAD. -/
theorem execFault_ne_romTooLarge (h : execFault i s kind) : kind ≠ .romTooLarge := by
  cases i <;> simp_all [execFault]

/-- The rows of the table by the stage they belong to: fetch, decode, execute. -/
theorem faultRow_iff :
    FaultRow s kind word ↔
      (0xFFF ≤ s.pc.toNat ∧ kind = .memoryOutOfBounds ∧ word = none) ∨
      ∃ w, s.fetch = some w ∧ word = some w ∧
        ((decodeWord w = .unknownOpcode ∧ kind = .unknownOpcode) ∨ ∃ i, decodeWord w = .op i ∧ execFault i s kind) := by
  refine or_congr Iff.rfl (exists_congr fun w => and_congr_right fun _ => and_congr_right fun _ => or_congr Iff.rfl ?_)
  constructor
  · rintro (⟨nnn, hd, h⟩ | ⟨nnn, hd, h⟩ | ⟨hd, h⟩ | ⟨x, y, n, hd, h⟩ | ⟨x, hd, h⟩ | ⟨x, hd | hd, h⟩)
    · exact ⟨_, hd, .inl ⟨nnn, rfl, h⟩⟩
    · exact ⟨_, hd, .inr (.inl ⟨nnn, rfl, h⟩)⟩
    · exact ⟨_, hd, .inr (.inr (.inl ⟨rfl, h⟩))⟩
    · exact ⟨_, hd, .inr (.inr (.inr (.inl ⟨x, y, n, rfl, h⟩)))⟩
    · exact ⟨_, hd, .inr (.inr (.inr (.inr (.inl ⟨x, rfl, h⟩))))⟩
    · exact ⟨_, hd, .inr (.inr (.inr (.inr (.inr ⟨x, .inl rfl, h⟩))))⟩
    · exact ⟨_, hd, .inr (.inr (.inr (.inr (.inr ⟨x, .inr rfl, h⟩))))⟩
  · rintro ⟨i, hd, ⟨nnn, rfl, h⟩ | ⟨nnn, rfl, h⟩ | ⟨rfl, h⟩ | ⟨x, y, n, rfl, h⟩ | ⟨x, rfl, h⟩ | ⟨x, rfl | rfl, h⟩⟩
    · exact .inl ⟨nnn, hd, h⟩
    · exact .inr (.inl ⟨nnn, hd, h⟩)
    · exact .inr (.inr (.inl ⟨hd, h⟩))
    · exact .inr (.inr (.inr (.inl ⟨x, y, n, hd, h⟩)))
    · exact .inr (.inr (.inr (.inr (.inl ⟨x, hd, h⟩))))
    · exact .inr (.inr (.inr (.inr (.inr ⟨x, .inl hd, h⟩))))
    · exact .inr (.inr (.inr (.inr (.inr ⟨x, .inr hd, h⟩))))

/-- A STEP that meets a row of the table raises that row's fault. -/
theorem step_of_faultRow (hr : s.runState = .running) (h : FaultRow s kind word) : step s = .next (s.raise kind word) := by
  obtain ⟨hpc, rfl, rfl⟩ | ⟨w, hf, rfl, ⟨hd, rfl⟩ | ⟨i, hd, hi⟩⟩ := faultRow_iff.1 h
  · exact step_fetch_fault hr (by rw [State.fetch_eq, if_neg (by omega)])
  · exact step_unknown hr hf hd
  · rw [step_exec hr hf hd, exec_of_execFault hi, encode_of_execFault hd hi]

/-- The two ends of a RUNNING STEP, by the fault table. -/
theorem step_running_faultRow (hr : s.runState = .running) :
    (∃ kind, FaultRow s kind s.fetch ∧ kind ≠ .romTooLarge ∧ step s = .next (s.raise kind s.fetch)) ∨
      ∃ t, step s = .next t ∧ t.Live ∧ t.fault = s.fault := by
  obtain ⟨hf, hpc, hs⟩ | ⟨w, hf, hd, hs⟩ | ⟨w, i, hf, hd, hs⟩ := step_running_cases hr
  · exact .inl ⟨_, faultRow_iff.2 (.inl ⟨hpc, rfl, hf⟩), by simp, hf ▸ hs⟩
  · exact .inl ⟨_, faultRow_iff.2 (.inr ⟨w, hf, hf, .inl ⟨hd, rfl⟩⟩), by simp, hf ▸ hs⟩
  · obtain ⟨kind, hk, he⟩ | ⟨-, t, he, hfault, -, -, hrun⟩ := exec_cases i s
    · refine .inl ⟨kind, faultRow_iff.2 (.inr ⟨w, hf, hf, .inr ⟨i, hd, hk⟩⟩), execFault_ne_romTooLarge hk, ?_⟩
      rw [hs, he, encode_of_execFault hd hk, hf]
    · refine .inr ⟨t, hs.trans he, ?_, hfault⟩
      obtain hrun | ⟨-, -, hrun, -⟩ := hrun <;> simp [hrun, hr]

/-! ### Completion, and the result of a STEP that is rejected -/

theorem State.Executes.step_eq (h : s.Executes i) : step s = exec i s := by
  obtain ⟨hr, w, hf, hd⟩ := h
  exact step_exec hr hf hd

theorem exec_next (i : Instr) (s : State) : ∃ t, exec i s = .next t := by
  obtain ⟨_, -, he⟩ | ⟨-, t, he, -⟩ := exec_cases i s
  · exact ⟨_, he⟩
  · exact ⟨t, he⟩

theorem step_next (h : s.Live) : ∃ t, step s = .next t := by
  cases hr : s.runState with
  | halted => exact absurd hr h
  | waitingForKey => exact ⟨_, step_waiting hr⟩
  | running =>
    obtain ⟨-, -, hs⟩ | ⟨w, -, -, hs⟩ | ⟨w, i, -, -, hs⟩ := step_running_cases hr
    · exact ⟨_, hs⟩
    · exact ⟨_, hs⟩
    · exact hs ▸ exec_next i s

theorem State.afterStep_of_next (h : step s = .next t) : s.afterStep = t := by
  simp only [State.afterStep, h]

theorem State.afterStep_of_halted (h : s.runState = .halted) : s.afterStep = s := by
  simp only [State.afterStep, step_halted h]

theorem stepResult_of_alreadyHalted (h : s.runState = .halted) : stepResult s = .alreadyHalted s.fault := by
  simp only [stepResult, step_halted h]

end

/-- Settles O11: only a fault halts a STEP, so the STEP ran in RUNNING and met a row of the table. -/
theorem faultingStepIsPrecise : Obligations.FaultingStepIsPrecise := by
  intro s t hs hstep ht
  cases hr : s.runState with
  | halted => exact absurd hr hs
  | waitingForKey =>
    cases (step_waiting hr).symm.trans hstep
    exact absurd ht (State.pollKeys_live hr)
  | running =>
    obtain ⟨kind, -, hne, he⟩ | ⟨t', he, hlive, -⟩ := step_running_faultRow hr
    · cases he.symm.trans hstep
      exact ⟨rfl, kind, rfl, hne⟩
    · cases he.symm.trans hstep
      exact absurd ht hlive

/-- Settles O12: a row that applies is raised, and a STEP that raises nothing met no row. -/
theorem stepFaultsExactlyByTheFaultTable : Obligations.StepFaultsExactlyByTheFaultTable := by
  refine fun s hr => ⟨fun kind word h => ⟨_, step_of_faultRow hr h, rfl⟩, fun hnone => ?_⟩
  obtain ⟨kind, hrow, -⟩ | h := step_running_faultRow hr
  · exact absurd ⟨kind, _, hrow⟩ hnone
  · exact h

/-- Settles O13. -/
theorem everyInstructionAnswersANextState : Obligations.EveryInstructionAnswersANextState :=
  ⟨exec_next, fun _ => step_next⟩

/-- Settles O6: the two bytes are the fetched word. -/
theorem stepRunsTheDecodedInstruction : Obligations.StepRunsTheDecodedInstruction :=
  fun _ _ hr hpc hd => step_exec hr (by rw [State.fetch_eq, if_pos hpc]; rfl) hd

/-- Settles O10: the poll finds the least key that is down, and there is only one least. -/
theorem waitingStepPollsTheKeys : Obligations.WaitingStepPollsTheKeys := by
  intro s hw
  obtain ⟨hnone, hs⟩ | ⟨k, hk, hlt, hs⟩ := s.pollKeys_cases
  · exact ⟨fun _ => by rw [step_waiting hw, hs], fun k hk => absurd hk (by simp [hnone k])⟩
  · refine ⟨fun hnone => absurd hk (by simp [hnone k]), fun k' hk' hlt' => ?_⟩
    obtain rfl : k' = k := by
      obtain h | h | h := Nat.lt_trichotomy k'.toNat k.toNat
      · exact absurd hk' (by simp [hlt k' h])
      · exact BitVec.eq_of_toNat_eq h
      · exact absurd hk (by simp [hlt' k h])
    exact ⟨_, (step_waiting hw).trans (congrArg _ hs), rfl, State.setV_getV s s.waitReg _⟩

/-- Settles O9: every event but RESET keeps the run state of a HALTED session, LOAD of an image too long included. -/
theorem haltedRejectsStepsUntilReset : Obligations.HaltedRejectsStepsUntilReset := by
  have hstep (m : Session) (rand : Byte) (h : m.state.runState = .halted) : (handle (.step rand) m).1.state = m.state := by
    have hw : (m.state.withRand rand).runState = .halted := h
    simp only [handle, State.afterStepRand, State.afterStep_of_halted hw]
    rfl
  refine ⟨fun s => step_halted, fun m rand h => ⟨hstep m rand h, ?_⟩, fun e m h hne => ?_⟩
  · exact stepResult_of_alreadyHalted (s := m.state.withRand rand) h
  · cases e with
    | reset => rfl
    | load image =>
      refine absurd ?_ hne
      simp only [handle, Session.load]
      split
      · split
        · rfl
        · simpa [State.loadImage] using h
      · exact h
    | step rand => exact absurd (hstep m rand h ▸ h) hne
    | tick => exact absurd h hne
    | key k down => exact absurd h hne

/-- Settles O16: of the instructions that write a register `V[r]`, those that can name VF. -/
theorem vfChangesOnlyAsFlagOrDestination : Obligations.VfChangesOnlyAsFlagOrDestination := by
  intro i s t h hne
  obtain ⟨kk, hi⟩ | ⟨y, hi⟩ | hi | ⟨x, hi, hx⟩ | ⟨-, hi | hi⟩ := (exec_effect h).getV_ne hne
  · exact .inr (.inr (.inl ⟨kk, hi⟩))
  · obtain hi | hi | hi | hi | hi := hi
    · exact .inr (.inr (.inr (.inl ⟨y, .inl hi⟩)))
    · exact .inr (.inr (.inr (.inl ⟨y, .inr (.inl hi)⟩)))
    · exact .inr (.inr (.inr (.inl ⟨y, .inr (.inr (.inl hi))⟩)))
    · exact .inr (.inr (.inr (.inl ⟨y, .inr (.inr (.inr hi))⟩)))
    · exact .inl ⟨0xF#4, y, hi⟩
  · exact .inr (.inr (.inr (.inr (.inl hi))))
  · obtain rfl : x = 0xF#4 := by bv_omega
    exact .inr (.inr (.inr (.inr (.inr hi))))
  · exact .inl hi
  · exact .inr (.inl hi)

/-- Settles O19: the jump writes the `pc` that stands there. -/
theorem selfJumpChangesNothing : Obligations.SelfJumpChangesNothing := by
  intro s nnn he hpc
  have hz : zextAddr nnn = s.pc := BitVec.eq_of_toNat_eq ((toNat_zextAddr nnn).trans hpc.symm)
  rw [he.step_eq]
  exact congrArg (fun a => Host.Outcome.next (s.jump a)) hz

end Sys2Proof.Machine
end

section
/-! SUPPORT and PROOFS. The events (40_cycle_engine.md R100): a STEP and its `rand` (O18, O52), and the transitions of the run
state (O17). -/

namespace Sys2Proof.Machine

section
variable {i : Instr} {s t : State} {r : Byte}

/-! ### SYS (41_control.md R120) -/

theorem exec_sys_of_halt (nnn : Addr) (h : s.params.sysMode = .halt) :
    exec (.sys nnn) s = .next (s.raise .unknownOpcode (some (0x0#4 ++ nnn))) := by
  simp only [exec, execSys, h]
  rfl

theorem exec_sys_of_ignore (nnn : Addr) (h : s.params.sysMode = .ignore) : exec (.sys nnn) s = .next s.advance := by
  simp only [exec, execSys, h]

/-! ### What does not look at the supplied byte commutes with supplying it -/

theorem State.writeBytes_withRand (s : State) (a : Nat) (bs : List Byte) :
    (s.withRand r).writeBytes a bs = (s.writeBytes a bs).withRand r := by
  induction bs generalizing s a with
  | nil => rfl
  | cons b rest ih => exact ih (s.writeByte a b) (a + 1)

theorem State.loadRegs_withRand (s : State) (x : Nibble) : (s.withRand r).loadRegs x = (s.loadRegs x).withRand r :=
  List.foldl_hom (State.withRand · r) fun _ _ => rfl

theorem State.skipIf_withRand (s : State) (c : Bool) : (s.withRand r).skipIf c = (s.skipIf c).withRand r := by
  rw [State.skipIf_eq, State.skipIf_eq]
  rfl

theorem State.pollKeys_withRand (s : State) : (s.withRand r).pollKeys = s.pollKeys.withRand r := by
  have hk : (s.withRand r).keys = s.keys := rfl
  simp only [State.pollKeys, hk]
  split <;> rfl

/-- RND alone consumes the supplied byte (46_random.md R201). -/
theorem exec_withRand (hi : ∀ x kk, i ≠ .rnd x kk) (h : exec i s = .next t) :
    exec i (s.withRand r) = .next (t.withRand r) := by
  cases i with
  | rnd x kk => exact absurd rfl (hi x kk)
  | sys nnn =>
    cases hm : s.params.sysMode with
    | halt =>
      cases (exec_sys_of_halt nnn hm).symm.trans h
      exact exec_sys_of_halt (s := s.withRand r) nnn hm
    | ignore =>
      cases (exec_sys_of_ignore nnn hm).symm.trans h
      exact exec_sys_of_ignore (s := s.withRand r) nnn hm
  | ret =>
    by_cases h0 : s.sp.val = 0
    · cases (exec_ret_of_empty h0).symm.trans h
      exact exec_ret_of_empty (s := s.withRand r) h0
    · have hpos : 0 < s.sp.val := Nat.pos_of_ne_zero h0
      cases (exec_ret_of_pop (State.pop_some hpos)).symm.trans h
      exact exec_ret_of_pop (State.pop_some (s := s.withRand r) hpos)
  | call nnn =>
    by_cases h16 : s.sp.val = 16
    · cases (exec_call_of_full nnn h16).symm.trans h
      exact exec_call_of_full (s := s.withRand r) nnn h16
    · have hlt : s.sp.val < 16 := by omega
      cases (exec_call_of_push nnn (State.push_some _ hlt)).symm.trans h
      exact exec_call_of_push (s := s.withRand r) nnn (State.push_some (s := s.withRand r) _ hlt)
  | drw x y n =>
    simp only [exec, execDrw] at h
    split at h <;> cases h
    · exact if_pos ‹_›
    · exact if_neg ‹_›
  | ldBVx x =>
    simp only [exec, execLdBVx] at h
    split at h <;> cases h
    · exact (if_pos ‹_›).trans (congrArg (fun u => Host.Outcome.next u.advance) (State.writeBytes_withRand s _ _))
    · exact if_neg ‹_›
  | ldMemVx x =>
    simp only [exec, execLdMemVx] at h
    split at h <;> cases h
    · exact (if_pos ‹_›).trans (congrArg (fun u => Host.Outcome.next u.advance) (State.writeBytes_withRand s _ _))
    · exact if_neg ‹_›
  | ldVxMem x =>
    simp only [exec, execLdVxMem] at h
    split at h <;> cases h
    · exact (if_pos ‹_›).trans (congrArg (fun u => Host.Outcome.next u.advance) (State.loadRegs_withRand s _))
    · exact if_neg ‹_›
  | seImm | sneImm | seReg | sneReg | skp | sknp =>
    cases h
    exact congrArg _ (State.skipIf_withRand s _)
  | _ =>
    cases h
    rfl

/-- A STEP that executes no RND does the same whatever byte is supplied. -/
theorem step_withRand (hn : ¬∃ x kk, s.Executes (.rnd x kk)) (h : step s = .next t) :
    step (s.withRand r) = .next (t.withRand r) := by
  cases hr : s.runState with
  | halted => cases (step_halted hr).symm.trans h
  | waitingForKey =>
    cases (step_waiting hr).symm.trans h
    exact (step_waiting (s := s.withRand r) hr).trans (congrArg _ (State.pollKeys_withRand s))
  | running =>
    obtain ⟨hf, -, hs⟩ | ⟨w, hf, hd, hs⟩ | ⟨w, i, hf, hd, hs⟩ := step_running_cases hr
    · cases hs.symm.trans h
      exact step_fetch_fault (s := s.withRand r) hr hf
    · cases hs.symm.trans h
      exact step_unknown (s := s.withRand r) hr hf hd
    · have hi (x : Nibble) (kk : Byte) : i ≠ .rnd x kk := by
        rintro rfl
        exact hn ⟨x, kk, hr, w, hf, hd⟩
      exact (step_exec (s := s.withRand r) hr hf hd).trans (exec_withRand hi (hs.symm.trans h))

theorem stepResult_withRand (h : step s = .next t) (h' : step (s.withRand r) = .next (t.withRand r)) :
    stepResult (s.withRand r) = stepResult s := by
  simp only [stepResult, h, h']
  rfl

/-- The event STEP(rand) without RND, in terms that do not name `rand`. -/
theorem handle_step_of_no_rnd (m : Session) (hn : ¬∃ x kk, m.state.Executes (.rnd x kk)) :
    handle (.step r) m =
      ({ state := { m.state.afterStep with randInputs := m.state.randInputs }, loadable := false }, stepResult m.state) := by
  by_cases hs : m.state.runState = .halted
  · have hs' : (m.state.withRand r).runState = .halted := hs
    simp only [handle, State.afterStepRand, State.afterStep_of_halted hs, State.afterStep_of_halted hs',
      stepResult_of_alreadyHalted hs, stepResult_of_alreadyHalted hs']
    rfl
  · obtain ⟨t, h⟩ := step_next hs
    have h' := step_withRand (r := r) hn h
    simp only [handle, State.afterStepRand, State.afterStep_of_next h, State.afterStep_of_next h', stepResult_withRand h h']
    rfl

/-! ### RND (46_random.md R200) -/

theorem exec_rnd_frame (x : Nibble) (kk : Byte) (s : State) :
    ∃ t, exec (.rnd x kk) s = .next t ∧
      t = { s with v := t.v, pc := t.pc, randInputs := t.randInputs, randDraws := t.randDraws } ∧ t.pc = s.pc + 2#16 ∧
      ∀ r, t.getV r = if r = x then s.randByte &&& kk else s.getV r := by
  refine ⟨_, rfl, ?_, ?_, fun r => ?_⟩
  · rw [State.consumeRand_eq]
    rfl
  · rw [State.consumeRand_eq]
    rfl
  · rw [State.advance_getV, State.setV_getV, State.consumeRand_getV]

/-- In a STEP(rand) the byte that RND consumes is `rand`, and the random source is left as it was. -/
theorem handle_step_of_rnd {m : Session} {x : Nibble} {kk : Byte} (he : m.state.Executes (.rnd x kk)) :
    handle (.step r) m = ({ state := (m.state.setV x (r &&& kk)).advance, loadable := false }, .ok false) := by
  have he' : (m.state.withRand r).Executes (.rnd x kk) := he
  have hs : step (m.state.withRand r) = .next { (m.state.setV x (r &&& kk)).advance with randInputs := [] } := he'.step_eq
  have hlive : State.Live { (m.state.setV x (r &&& kk)).advance with randInputs := [] } := by simp [he.1]
  simp only [handle, State.afterStepRand, State.afterStep_of_next hs, stepResult_of_live hs hlive,
    State.redraws_of_executes he']
  rfl

end

/-- Settles O18: neither side of the equation depends on the byte. -/
theorem randIsIgnoredUnlessRndExecutes : Obligations.RandIsIgnoredUnlessRndExecutes :=
  fun m _ _ hn => (handle_step_of_no_rnd m hn).trans (handle_step_of_no_rnd m hn).symm

/-- Settles O52: the byte of STEP(rand) is the one that the RND of the STEP consumes. -/
theorem rndMasksTheRandomByte : Obligations.RndMasksTheRandomByte := by
  refine ⟨exec_rnd_frame, fun x kk rand m he => ?_⟩
  exact ⟨_, handle_step_of_rnd he, rfl, rfl, fun r => State.setV_getV m.state x _ r⟩

/-- Settles O17: each event that can change the run state, by the run state it starts from. -/
theorem runStateTransitionsAreTheListedOnes : Obligations.RunStateTransitionsAreTheListedOnes := by
  intro e m hne
  cases e with
  | reset => exact .inl ⟨rfl, rfl⟩
  | load image =>
    simp only [handle, Session.load] at hne ⊢
    split at hne
    · split at hne
      · exact .inr (.inr (.inr (.inr ⟨by simp [*], image, rfl, ‹_›, ‹_›⟩)))
      · exact absurd (by simp [State.loadImage]) hne
    · exact absurd rfl hne
  | step rand =>
    have hstate : (handle (.step rand) m).1.state.runState = (m.state.withRand rand).afterStep.runState := rfl
    cases hr : m.state.runState with
    | halted =>
      have hs : (m.state.withRand rand).afterStep = m.state.withRand rand := State.afterStep_of_halted hr
      exact absurd (hstate.trans (congrArg State.runState hs)) hne
    | waitingForKey =>
      have hs := State.afterStep_of_next (step_waiting (s := m.state.withRand rand) hr)
      obtain ⟨-, hpoll⟩ | ⟨k, hk, -, hpoll⟩ := (m.state.withRand rand).pollKeys_cases
      · exact absurd (hstate.trans (congrArg State.runState (hs.trans hpoll))) hne
      · exact .inr (.inr (.inl ⟨rfl, hstate.trans (congrArg State.runState (hs.trans hpoll)), ⟨rand, rfl⟩, k, hk⟩))
    | running =>
      obtain ⟨kind, hs⟩ | ⟨i, t, he, hs, hlive⟩ := step_running_ends (s := m.state.withRand rand) hr
      · have ht := congrArg State.runState (State.afterStep_of_next hs)
        exact .inr (.inr (.inr (.inl ⟨rfl, hstate.trans ht, rand, rfl, _, stepResult_of_halted hs rfl rfl⟩)))
      · have ht := State.afterStep_of_next hs
        obtain hhalt | ⟨x, rfl⟩ := (he.effect hs).runState_ne fun h => hne (hstate.trans (ht ▸ h))
        · exact absurd hhalt hlive
        · cases he.step_eq.symm.trans hs
          exact .inr (.inl ⟨rfl, hstate.trans (congrArg State.runState ht), ⟨rand, rfl⟩, x, he,
            congrArg State.waitReg ht⟩)
  | tick => exact absurd rfl hne
  | key k down => exact absurd rfl hne

end Sys2Proof.Machine
end

section
/-! SUPPORT and PROOFS. Memory (20_memory.md) and the events that are not a STEP (70_reset_and_hazards.md, 44_timers.md): O23 to
O30. -/

namespace Sys2Proof.Machine

section
variable {s : State} {x : Nibble}

/-! ### The reset contents (10_state.md R36) -/

/-- The font stands at FONT_BASE (20_memory.md R53). -/
theorem unlistedByte_font (p : Config.Params) {d r : Nat} (hd : d < 16) (hr : r < 5) :
    unlistedByte p (p.fontBase.val + 5 * d + r) = fontByte d r := by
  rw [unlistedByte, if_pos (by omega), ← fontTable_getD hd hr]
  congr 1
  omega

theorem unlistedByte_outside (p : Config.Params) {a : Nat} (ha : a < p.fontBase.val ∨ p.fontBase.val + 80 ≤ a) :
    unlistedByte p a = 0x00#8 := by
  unfold unlistedByte
  split
  · have hlen : fontTable.length = 80 := rfl
    exact List.getD_eq_default _ _ (by omega)
  · rfl

/-! ### A store and the fetch (20_memory.md R65) -/

/-- What a store of V0..VX from `a` on leaves at each address. -/
theorem State.writeBytes_regsUpTo_readByte (a m : Nat) :
    (s.writeBytes a (s.regsUpTo x)).readByte m =
      if a ≤ m ∧ m ≤ a + x.toNat then s.getV (BitVec.ofNat 4 (m - a)) else s.readByte m := by
  split
  · next hm =>
    rw [State.writeBytes_readByte, State.regsUpTo_length, if_pos (by omega), State.regsUpTo_getD s x _ (by omega)]
  · exact State.writeBytes_regsUpTo_outside (by omega)

/-! ### The timers and the keys -/

theorem countDown_toNat (b : Byte) : (countDown b).toNat = if 0 < b.toNat then b.toNat - 1 else 0 := by
  unfold countDown
  split
  · next hb => simp [hb]
  · split <;> bv_omega

@[simp] theorem State.setKey_keyDown (s : State) (k j : Nibble) (down : Bool) :
    (s.setKey k down).keyDown j = if j = k then down else s.keyDown j := by
  simp [State.keyDown, State.setKey, Vector.getElem_set, BitVec.toNat_inj, eq_comm]

/-! ### The word placed where the next STEP fetches -/

theorem decodeWord_of_decodeTableWord {n w : Nat} {i : Instr} (h : decodeTableWord n w = some i) :
    decodeWord (tableWord n w) = .op i := by
  have hb := decode_bytesOfWord (tableWord n w) []
  rw [List.append_nil] at hb
  unfold decodeTableWord at h
  rw [hb] at h
  cases hd : decodeWord (tableWord n w) with
  | op j => simpa [hd] using h
  | unknownOpcode => simp [hd] at h

theorem State.placeWord_pc (s : State) (w : Word) :
    (s.placeWord w).pc = if s.pc.toNat ≤ 0xFFE then s.pc else Config.entryPc := rfl

theorem State.placeWord_pc_le (s : State) (w : Word) : (s.placeWord w).pc.toNat ≤ 0xFFE := by
  rw [State.placeWord_pc]
  split
  · assumption
  · decide

theorem State.placeWord_readByte (s : State) (w : Word) (m : Nat) :
    (s.placeWord w).readByte m = (s.writeBytes (s.placeWord w).pc.toNat (bytesOfWord w)).readByte m := rfl

theorem State.placeWord_fetch (s : State) (w : Word) : (s.placeWord w).fetch = some w := by
  rw [State.fetch_eq, if_pos (s.placeWord_pc_le w), State.placeWord_readByte, State.placeWord_readByte,
    State.writeBytes_readByte, State.writeBytes_readByte, if_pos (by simp [bytesOfWord]), if_pos (by simp [bytesOfWord]),
    Nat.sub_self, Nat.add_sub_cancel_left]
  exact congrArg some (wordOfBytes_bytesOfWord w)

end

/-- Settles O23. -/
theorem memoryReadsTheByteLastWritten : Obligations.MemoryReadsTheByteLastWritten := by
  refine ⟨fun s a b ha => ?_, fun s a b ha => ⟨_, State.memWrite_eq s b ha, rfl, rfl, fun m hm => ?_⟩⟩
  · have hout : inBounds a = false := by simp [inBounds, ha]
    simp [State.memRead, State.memWrite, hout]
  · rw [State.memRead_eq, if_pos hm, State.writeByte_readByte]

/-- Settles O24: the fetch reads the two bytes as the store left them. -/
theorem storeIsSeenByTheNextFetch : Obligations.StoreIsSeenByTheNextFetch := by
  intro s x p hx hp
  refine ⟨_, exec_ldMemVx_of_le hx, ?_⟩
  rw [State.fetch_eq, State.jump_pc, if_pos hp]
  simp only [State.jump_readByte, State.advance_readByte, State.writeBytes_regsUpTo_readByte]
  rfl

/-- Settles O25: the listed values are those of the reset state, and memory, which lists nothing, reads as the reset contents. -/
theorem resetEventLeavesTheResetValues : Obligations.ResetEventLeavesTheResetValues := by
  refine fun m => ⟨_, rfl, fun r => ?_, rfl, rfl, rfl, fun k => ?_, rfl, rfl, fun y x => ?_, fun k => ?_, rfl, rfl, rfl, rfl, rfl,
    fun d r hd hr => unlistedByte_font _ hd hr, fun a ha => unlistedByte_outside _ ha⟩
  · exact Vector.getElem_replicate _
  · exact Vector.getElem_replicate _
  · simp [State.doReset, State.resetWith, pixel]
  · exact Vector.getElem_replicate _

/-- Settles O26. -/
theorem fontStandsInMemoryAfterReset : Obligations.FontStandsInMemoryAfterReset :=
  fun p _ _ _ hd hr => unlistedByte_font p hd hr

/-- Settles O27: each clause is one branch of LOAD. -/
theorem loadPutsTheImageOrRejectsIt : Obligations.LoadPutsTheImageOrRejectsIt := by
  refine fun m image => ⟨fun hl hlen => ?_, fun hl hlen => ?_, fun hl => ?_⟩
  · refine ⟨m.state.loadImage image, ?_, State.writeBytes_eq _ _ _, State.writeBytes_readByte _ _ _⟩
    rw [handle, Session.load, if_pos hl, if_neg (Nat.not_lt.2 hlen)]
  · rw [handle, Session.load, if_pos hl, if_pos hlen]
    rfl
  · rw [handle, Session.load, if_neg (by simp [hl])]

/-- Settles O28. -/
theorem tickCountsBothTimersDown : Obligations.TickCountsBothTimersDown :=
  fun _ => ⟨_, rfl, rfl, countDown_toNat _, countDown_toNat _⟩

/-- Settles O29. -/
theorem keyEventSetsOneFlag : Obligations.KeyEventSetsOneFlag :=
  fun m k down => ⟨_, rfl, rfl, fun j => State.setKey_keyDown m.state k j down⟩

/-- Settles O30: the word stands where the STEP fetches, and no other byte is written. -/
theorem withFetchWordIsWhatTheNextStepRuns : Obligations.WithFetchWordIsWhatTheNextStepRuns := by
  intro s w i h
  refine ⟨step_exec rfl (State.placeWord_fetch s _) (decodeWord_of_decodeTableWord h), fun hpc => ?_, fun a h0 h1 => ?_⟩
  · exact (State.placeWord_pc s _).trans (if_pos hpc)
  · rw [State.withFetchWord] at h0 h1 ⊢
    rw [State.placeWord_readByte, State.writeBytes_readByte, if_neg]
    simp only [bytesOfWord, List.length_cons, List.length_nil]
    omega

end Sys2Proof.Machine
end

section
/-! SUPPORT and PROOFS. Control transfer (41_control.md) and the keypad (47_input.md): SYS (O31), CALL then RET (O34), the jumps
(O35), the skips (O36, O37, O53) and LD Vx, K (O54). -/

namespace Sys2Proof.Machine

section
variable {i : Instr} {s : State}

/-! ### The shape of a skip -/

/-- A skip taken under the condition `p` writes `pc` alone (41_control.md R124). -/
theorem exec_skip_of_iff {taken : Bool} {p : Prop} [Decidable p] (he : exec i s = .next (s.skipIf taken))
    (hp : taken = true ↔ p) :
    ∃ t, exec i s = .next t ∧ SameButPc s t ∧ t.pc = if p then s.pc + 4#16 else s.pc + 2#16 := by
  refine ⟨_, he, ?_, ?_⟩
  · rw [State.skipIf_eq]
  · rw [State.skipIf_pc]
    exact if_congr hp rfl rfl

/-- The same for a skip taken when `p` fails (41_control.md R125). -/
theorem exec_skip_of_not_iff {taken : Bool} {p : Prop} [Decidable p] (he : exec i s = .next (s.skipIf taken))
    (hp : taken = true ↔ ¬p) :
    ∃ t, exec i s = .next t ∧ SameButPc s t ∧ t.pc = if p then s.pc + 2#16 else s.pc + 4#16 := by
  obtain ⟨t, hs, hsame, hpc⟩ := exec_skip_of_iff he hp
  exact ⟨t, hs, hsame, hpc.trans (ite_not ..)⟩

theorem keyCode_eq {v : Byte} {k : Nibble} (hk : k.toNat = v.toNat % 16) : keyCode v = k :=
  BitVec.eq_of_toNat_eq ((BitVec.toNat_setWidth 4 v).trans hk.symm)

end

/-- Settles O31. -/
theorem sysFollowsSysMode : Obligations.SysFollowsSysMode :=
  fun nnn _ => ⟨fun h => ⟨_, exec_sys_of_halt nnn h, rfl⟩, fun h => ⟨_, exec_sys_of_ignore nnn h, rfl, rfl⟩⟩

/-- Settles O34: RET pops the entry that CALL has just pushed. -/
theorem callThenRetComesBack : Obligations.CallThenRetComesBack := by
  intro nnn s h
  have hcall := exec_call_of_push nnn (State.push_some (s.pc + 2#16) h)
  have hpop := State.pop_of_succ (k := ⟨s.sp.val, h⟩)
    (s := State.jump { s with stack := s.stack.set s.sp.val (s.pc + 2#16) h, sp := ⟨s.sp.val + 1, by omega⟩ } (zextAddr nnn))
    rfl
  refine ⟨_, _, hcall, exec_ret_of_pop hpop, ?_, rfl, rfl⟩
  simp

/-- Settles O35. -/
theorem jumpsSetThePc : Obligations.JumpsSetThePc :=
  fun nnn _ => ⟨⟨_, rfl, rfl, toNat_zextAddr nnn⟩, ⟨_, rfl, rfl, toNat_zextAddr_add_zextByte nnn _⟩⟩

/-- Settles O36. -/
theorem immediateSkips : Obligations.ImmediateSkips :=
  fun _ _ _ => ⟨exec_skip_of_iff rfl beq_iff_eq, exec_skip_of_not_iff rfl bne_iff_ne⟩

/-- Settles O37. -/
theorem registerSkips : Obligations.RegisterSkips :=
  fun _ _ _ => ⟨exec_skip_of_iff rfl beq_iff_eq, exec_skip_of_not_iff rfl bne_iff_ne⟩

/-- Settles O53: the key tested is the one the low nibble names. -/
theorem keySkips : Obligations.KeySkips := by
  intro x k s hk
  rw [← keyCode_eq hk]
  exact ⟨exec_skip_of_iff rfl Iff.rfl, exec_skip_of_not_iff rfl (by simp)⟩

/-- Settles O54. -/
theorem ldVxKEntersTheWait : Obligations.LdVxKEntersTheWait :=
  fun _ _ => ⟨_, rfl, rfl⟩

end Sys2Proof.Machine
end

section
/-! SUPPORT and PROOFS. Instructions that write one element (42_alu.md, 43_memory_index.md, 44_timers.md, 45_draw.md): loads, logic
and shifts (O38, O39, O43), `I` (O44), LD B (O45), the timer moves (O48) and CLS (O49). -/

namespace Sys2Proof.Machine

section
variable {i : Instr} {s : State} {x : Nibble} {b : Byte}

/-! ### One register -/

/-- An instruction that writes `b` into `V[X]` and advances changes nothing else, VF included unless X = 15. -/
theorem exec_setV (he : exec i s = .next (s.setV x b).advance) :
    ∃ t, exec i s = .next t ∧ SameButRegsPc s t ∧ t.pc = s.pc + 2#16 ∧ ∀ r, t.getV r = if r = x then b else s.getV r :=
  ⟨_, he, rfl, rfl, State.setV_getV s x b⟩

/-- The same, bit by bit. -/
theorem exec_setV_bits (he : exec i s = .next (s.setV x b).advance) (f : Nat → Bool) (hf : ∀ k, b.getLsbD k = f k) :
    ∃ t, exec i s = .next t ∧ SameButRegsPc s t ∧ t.pc = s.pc + 2#16 ∧
      ∀ r k, (t.getV r).getLsbD k = if r = x then f k else (s.getV r).getLsbD k := by
  obtain ⟨t, hs, hsame, hpc, hv⟩ := exec_setV he
  exact ⟨t, hs, hsame, hpc, fun r k => by rw [hv, apply_ite (BitVec.getLsbD · k), hf]⟩

/-! ### The shifts (42_alu.md R149, R151) -/

theorem lowBit_toNat (a : Byte) : (lowBit a).toNat = a.toNat % 2 :=
  (Nat.toNat_testBit a.toNat 0).trans (by rw [pow_zero, Nat.div_one])

theorem highBit_toNat (a : Byte) : (highBit a).toNat = a.toNat / 128 := by
  have ha := a.isLt
  refine (Nat.toNat_testBit a.toNat 7).trans ?_
  omega

/-! ### The index register -/

/-- The glyph of a digit ends below 0x200, so its address does not wrap (20_memory.md R53). -/
theorem toNat_fontAddr (p : Config.Params) (v : Byte) : (fontAddr p v).toNat = p.fontBase.val + 5 * (v.toNat % 16) := by
  have := p.fontBase.isLt
  rw [fontAddr, BitVec.toNat_ofNat]
  omega

theorem toneActive_iff : s.toneActive = true ↔ s.st ≠ 0x00#8 := by
  rw [State.toneActive, decide_eq_true_eq, Nat.pos_iff_ne_zero]
  exact not_congr (BitVec.toNat_inj (y := 0x00#8))

end

/-- Settles O38. -/
theorem loadsAndImmediateAddWriteVx : Obligations.LoadsAndImmediateAddWriteVx := by
  refine fun x y kk s => ⟨exec_setV rfl, ?_, exec_setV rfl⟩
  obtain ⟨t, hs, hsame, hpc, hv⟩ := exec_setV (i := .addImm x kk) (s := s) rfl
  exact ⟨t, hs, hsame, hpc, fun r => by rw [hv, apply_ite BitVec.toNat, BitVec.toNat_add]⟩

/-- Settles O39. -/
theorem logicWritesVxBitByBit : Obligations.LogicWritesVxBitByBit :=
  fun _ _ _ => ⟨exec_setV_bits rfl _ fun _ => BitVec.getLsbD_or, exec_setV_bits rfl _ fun _ => BitVec.getLsbD_and,
    exec_setV_bits rfl _ fun _ => BitVec.getLsbD_xor⟩

/-- Settles O43: shifting by one place halves or doubles, and the bit shifted out is the flag. -/
theorem shiftsWriteVxAndTheBitShiftedOut : Obligations.ShiftsWriteVxAndTheBitShiftedOut := by
  refine fun x y s => ⟨exec_setResultFlag rfl ?_ (lowBit_toNat _), exec_setResultFlag rfl ?_ (highBit_toNat _)⟩
  · rw [BitVec.toNat_ushiftRight, Nat.shiftRight_eq_div_pow, pow_one]
  · rw [BitVec.toNat_shiftLeft, Nat.shiftLeft_eq, pow_one]

/-- Settles O44. -/
theorem indexInstructionsWriteI : Obligations.IndexInstructionsWriteI := by
  refine fun nnn x s => ⟨⟨_, rfl, rfl, rfl, toNat_zextAddr nnn⟩, ⟨_, rfl, rfl, rfl, ?_⟩,
    ⟨_, rfl, rfl, rfl, toNat_fontAddr _ _⟩⟩
  exact (BitVec.toNat_add _ _).trans (by rw [toNat_zextByte])

/-- Settles O45: within memory the digits stand at `I`, `I + 1`, `I + 2` and nothing else is written; beyond it the check
faults. -/
theorem bcdStoresThreeDigits : Obligations.BcdStoresThreeDigits := by
  refine fun x s => ⟨fun h => ⟨_, exec_ldBVx_of_le h, ?_, ?_, fun a => ?_⟩, fun h => ⟨_, exec_ldBVx_of_lt h, rfl⟩⟩
  · rw [State.writeBytes_eq]
    rfl
  · simp
  · have hv := (s.getV x).isLt
    simp only [State.advance_readByte, bcdDigits, State.writeBytes, State.writeByte_readByte, apply_ite BitVec.toNat,
      BitVec.toNat_ofNat]
    split_ifs <;> omega

/-- Settles O48. -/
theorem timerMoves : Obligations.TimerMoves :=
  fun _ _ => ⟨exec_setV rfl, ⟨_, rfl, rfl⟩, ⟨_, rfl, rfl, toneActive_iff⟩⟩

/-- Settles O49. -/
theorem clsClearsEveryPixel : Obligations.ClsClearsEveryPixel :=
  fun _ => ⟨_, rfl, rfl, rfl, fun y x => by simp [pixel]⟩

end Sys2Proof.Machine
end

section
/-! SUPPORT and PROOFS. DRW (45_draw.md R191 to R194): the two ends of the check (O50), and the same sprite drawn twice (O51). -/

namespace Sys2Proof.Machine

section
variable {s t : State} {x y n : Nibble}

theorem exec_drw_of_le (h : n = 0x0#4 ∨ s.i.toNat + n.toNat - 1 ≤ 0xFFF) :
    exec (.drw x y n) s = .next ((s.setFb (s.blit x y n).fb).setFlag (s.blit x y n).collision).advance :=
  if_pos ((drw_check s n).2 h)

theorem exec_drw_of_lt (hn : 0 < n.toNat) (h : 0xFFF < s.i.toNat + n.toNat - 1) :
    exec (.drw x y n) s = .next (s.raise .memoryOutOfBounds (some (0xD#4 ++ x ++ y ++ n))) :=
  if_neg fun hc => by
    obtain rfl | hle := (drw_check s n).1 hc
    · exact absurd hn (by decide)
    · omega

/-- What a sprite covers depends on memory, `I` and the two coordinates alone. -/
theorem spriteCovers_congr (hx : t.getV x = s.getV x) (hy : t.getV y = s.getV y) (hi : t.i = s.i)
    (hmem : ∀ a, t.readByte a = s.readByte a) (py : Fin 32) (px : Fin 64) :
    SpriteCovers t x y n py px ↔ SpriteCovers s x y n py px := by
  simp only [SpriteCovers, hx, hy, hi, hmem]

end

/-- Settles O50. -/
theorem drwTogglesTheCoveredPixels : Obligations.DrwTogglesTheCoveredPixels := by
  refine fun x y n s => ⟨fun h => ?_, fun hn h => ⟨_, exec_drw_of_lt hn h, rfl⟩⟩
  refine ⟨_, exec_drw_of_le h, rfl, rfl, fun py px => (s.blit_pixel x y n py px).1, fun py px => (s.blit_pixel x y n py px).2,
    fun r hr => ?_, ?_, ?_⟩
  · simp [hr]
  · rw [← State.blit_collision]
    simp
  · simp only [State.advance_getV, State.setFlag_getV, if_true]
    cases (s.blit x y n).collision <;> simp

/-- Settles O51: both draws toggle the same pixels, so a framebuffer that was clear holds exactly them after the first. -/
theorem drawingTwiceRestoresTheFramebuffer : Obligations.DrawingTwiceRestoresTheFramebuffer := by
  intro x y n s t h hs hx hy
  obtain ⟨t', hs', hframe, -, hon, hoff, -, hflag, hbit⟩ := (drwTogglesTheCoveredPixels x y n s).1 h
  cases hs'.symm.trans hs
  have hi : t.i = s.i := by rw [hframe]
  have hmem (a : Nat) : t.readByte a = s.readByte a := by rw [hframe]; rfl
  have hcov := spriteCovers_congr (n := n) hx hy hi hmem
  obtain ⟨u, hu, -, -, hon', hoff', -, hflag', -⟩ := (drwTogglesTheCoveredPixels x y n t).1 (hi ▸ h)
  refine ⟨u, hu, fun py px => ?_, fun hclear ⟨py, px, hc⟩ => ⟨?_, ?_⟩⟩
  · by_cases hc : SpriteCovers s x y n py px
    · rw [hon' py px ((hcov py px).2 hc), hon py px hc, Bool.not_not]
    · rw [hoff' py px (mt (hcov py px).1 hc), hoff py px hc]
  · refine hbit.resolve_left fun h1 => ?_
    obtain ⟨py, px, -, hset⟩ := hflag.1 h1
    rw [hclear] at hset
    cases hset
  · exact hflag'.2 ⟨py, px, (hcov py px).2 hc, by rw [hon py px hc, hclear]; rfl⟩

end Sys2Proof.Machine
end
